-- ==== Sys2Proof/Word.lean ====
section
/-! DEFINITION. The cells of the operand spaces (10_state.md rule R30): a byte, a byte string, a word sequence. -/

namespace Sys2Proof

/-- A byte: 8 bits, bit 7 the most significant (00_scope.md rule R12). -/
abbrev Byte := BitVec 8

/-- "An ordered, immutable sequence of 8-bit bytes" (00_scope.md rule R17). -/
abbrev ByteString := List Byte

/-- A word in its carrier: one 8-bit cell, the word right-aligned in bits `[WIDTH-1:0]` (10_state.md rule R30,
30_encoding.md rule R62). -/
abbrev WordCell := BitVec 8

/-- A word sequence, word index 0 first (30_encoding.md rule R62). -/
abbrev WordSeq := List WordCell

end Sys2Proof
end

