-- ==== Sys2Proof/Config.lean ====
section
/-! DEFINITION. The two values of one concrete machine that the spec leaves to whoever builds it, and nothing else:
both only set `State.reset` (and `decodeTableWord`); no meaning reads them. -/

namespace Sys2Proof

/-- The `IDXW` of the machine that `State.reset` describes. `IDXW` is an OPEN parameter, `>= 5` (00_scope.md rule
R8). DESIGN CHOICE 32, the value of the spec's examples; log entry 1. Every meaning takes `IDXW` from the state. -/
def Config.idxw : Nat := 32

/-- The level of the strap `width_cfg[3:0]` at the construction that `State.reset` describes. "There is no default"
(10_state.md rule R35). DESIGN CHOICE 4, one of the legal values 70_reset_and_hazards.md rule R175 asks for; log entry 2. -/
def Config.strap : BitVec 4 := 4#4

end Sys2Proof
end

