-- ==== Sys2Proof/Syntax.lean ====
section
/-! DEFINITION. The command header as syntax: one constructor per row of spec/opcode_table.json. -/

namespace Sys2Proof

/-- A decoded command header (30_encoding.md rules R70, R71). Every row has the two index fields of the one format
`CMD`, also where the operation ignores them (rule R73), so that no bit of a header is dropped. The attachments
(rule R72) are no part of the header: they are in the state's command record. -/
inductive Instr where
  | encode    (fromIdx endIdx : Nat)
  | decode    (fromIdx endIdx : Nat)
  | encodeall (fromIdx endIdx : Nat)
  | decodeall (fromIdx endIdx : Nat)
  | wordat    (fromIdx endIdx : Nat)
  | firstdiv  (fromIdx endIdx : Nat)
  | reserved6 (fromIdx endIdx : Nat)
  | reserved7 (fromIdx endIdx : Nat)
deriving DecidableEq, Repr

end Sys2Proof
end

