-- ==== Sys2Proof/WellFormed.lean ====
section
/-! DEFINITION. Which headers exist: both index fields are unsigned `IDXW`-bit values (00_scope.md rule R8). -/

namespace Sys2Proof

/-- The `from` field of a header. -/
def Instr.fromIdx : Instr → Nat
  | .encode f _ => f
  | .decode f _ => f
  | .encodeall f _ => f
  | .decodeall f _ => f
  | .wordat f _ => f
  | .firstdiv f _ => f
  | .reserved6 f _ => f
  | .reserved7 f _ => f

/-- The `end` field of a header. -/
def Instr.endIdx : Instr → Nat
  | .encode _ e => e
  | .decode _ e => e
  | .encodeall _ e => e
  | .decodeall _ e => e
  | .wordat _ e => e
  | .firstdiv _ e => e
  | .reserved6 _ e => e
  | .reserved7 _ e => e

/-- Both index fields are in range `0 .. 2^IDXW - 1` (00_scope.md rule R8, 30_encoding.md rule R77). "There is no
field whose wrong value makes a legal `op` illegal" (rule R73), so there is no further check. -/
def Instr.wellFormed (idxw : Nat) (i : Instr) : Bool :=
  decide (i.fromIdx < 2 ^ idxw) && decide (i.endIdx < 2 ^ idxw)

end Sys2Proof
end

