-- ==== Sys2Proof/Decode.lean ====
section
/-! DEFINITION. The header word of a command: its fields, the decoder, the encoder (30_encoding.md rules R70 to R77),
and the bit pattern of a host's signed index (rule R63). -/

namespace Sys2Proof

/-- Why a number is no header word. -/
inductive DecodeError where
  /-- A bit above bit `2*IDXW + 2` is set: the format `CMD` has `2*IDXW + 3` bits (30_encoding.md rule R70). -/
  | headerTooWide
deriving DecidableEq, Repr

/-- The length of a header in bits (30_encoding.md rule R70). -/
def headerBits (idxw : Nat) : Nat := 2 * idxw + 3

/-- The operation code, bits `[2:0]`. -/
def opField (hdr : Nat) : Fin 8 := ⟨hdr % 8, Nat.mod_lt _ (by decide)⟩

/-- `from`, bits `[IDXW+2 : 3]`. -/
def fromField (idxw hdr : Nat) : Nat := (hdr >>> 3) % 2 ^ idxw

/-- `end`, bits `[2*IDXW+2 : IDXW+3]`. -/
def endField (idxw hdr : Nat) : Nat := (hdr >>> (idxw + 3)) % 2 ^ idxw

/-- The table of operation codes (30_encoding.md rules R71, R74): total on the eight codes. -/
def instrOf (op : Fin 8) (fromIdx endIdx : Nat) : Instr :=
  match op with
  | 0 => .encode fromIdx endIdx
  | 1 => .decode fromIdx endIdx
  | 2 => .encodeall fromIdx endIdx
  | 3 => .decodeall fromIdx endIdx
  | 4 => .wordat fromIdx endIdx
  | 5 => .firstdiv fromIdx endIdx
  | 6 => .reserved6 fromIdx endIdx
  | 7 => .reserved7 fromIdx endIdx

/-- The instruction of a header word of `2*IDXW + 3` bits; a wider number is refused by name (log entry 9). -/
def decodeHeader (idxw hdr : Nat) : Except DecodeError Instr :=
  if hdr < 2 ^ headerBits idxw then
    .ok (instrOf (opField hdr) (fromField idxw hdr) (endField idxw hdr))
  else .error .headerTooWide

/-- The operation code of an instruction (30_encoding.md rule R71). -/
def opOf : Instr → Nat
  | .encode _ _ => 0
  | .decode _ _ => 1
  | .encodeall _ _ => 2
  | .decodeall _ _ => 3
  | .wordat _ _ => 4
  | .firstdiv _ _ => 5
  | .reserved6 _ _ => 6
  | .reserved7 _ _ => 7

/-- "The header word is `(end << (IDXW+3)) | (from << 3) | op`" (30_encoding.md rule R70). -/
def encodeHeader (idxw : Nat) (i : Instr) : Nat :=
  (i.endIdx <<< (idxw + 3)) ||| (i.fromIdx <<< 3) ||| opOf i

/-- The bit pattern, read unsigned, of a host's index `z`: `-n` is `2^IDXW - n` for `1 <= n <= 2^(IDXW-1)`
(30_encoding.md rules R63, R81); none for a number that has no `IDXW`-bit pattern. -/
def hostIndex (idxw : Nat) (z : Int) : Option Nat :=
  if z < 0 then
    if -(2 ^ (idxw - 1) : Int) ≤ z then some (2 ^ idxw - (-z).toNat) else none
  else if z.toNat < 2 ^ idxw then some z.toNat else none

/-- The host's question of the decoder: the header whose low `nbits` bits are `w` and whose other bits are 0, on the
machine of `Config.idxw`. -/
def decodeTableWord (nbits w : Nat) : Option Instr :=
  match decodeHeader Config.idxw (w % 2 ^ nbits) with
  | .ok i => some i
  | .error _ => none

end Sys2Proof
end

