-- ==== Sys2Proof/Machine/State.lean ====
section
/-! DEFINITION. The state of one instance and of its host, the values that cross the interface, and the state after
construction (10_state.md rules R20 to R35, 70_reset_and_hazards.md rules R170 to R174). -/

namespace Sys2Proof.Machine

/-- The four status codes of a response (60_exceptions.md rule R140). -/
inductive Status where
  | ok
  | errConfig
  | errIndex
  | errOp
deriving DecidableEq, Repr

/-- The payload of an `OK` response, its type fixed by the operation (10_state.md rule R32). -/
inductive Payload where
  | words (ws : WordSeq)
  | bytes (s : ByteString)
  | wordSeqs (l : List WordSeq)
  | byteStrings (l : List ByteString)
  | word (w : WordCell)
  | index (n : Nat)
deriving DecidableEq, Repr

/-- A response: "`payload` is present exactly when `status = OK`" (10_state.md rule R32). -/
structure Response where
  status : Status
  payload : Option Payload
deriving DecidableEq, Repr

/-- A command as it crosses the interface (10_state.md rule R31): the header word of 30_encoding.md rule R70 (`op`,
`from`, `end`) and the attachments, by value. -/
structure Command where
  hdr : Nat
  a : ByteString
  b : ByteString
  ws : WordSeq
  sa : List ByteString
  sw : List WordSeq
deriving DecidableEq, Repr

/-- The record that stands where no command is in flight: header 0, every attachment empty. DEDUCED; log entry 5. -/
def Command.empty : Command :=
  { hdr := 0, a := [], b := [], ws := [], sa := [], sw := [] }

/-- What the host can do to the block (10_state.md rules R23, R29, R33; 70_reset_and_hazards.md rules R170 to R173). -/
inductive HostEvent where
  /-- Drive a level on the strap input `width_cfg[3:0]`. -/
  | driveStrap (v : BitVec 4)
  /-- Assert the reset input. -/
  | assertReset
  /-- Release the reset input: construction, if it was asserted. -/
  | releaseReset
  /-- Issue a command. -/
  | issue (c : Command)
  /-- Do nothing for one step; the block may take its own. -/
  | wait
deriving DecidableEq, Repr

/-- One instance and its host. -/
structure State where
  /-- `IDXW`, fixed when the block is built (00_scope.md rule R8); no step changes it. -/
  idxw : Nat
  /-- The input strap `width_cfg[3:0]` as the host drives it (10_state.md rule R23). -/
  strap : BitVec 4
  /-- Whether the reset input is asserted (70_reset_and_hazards.md rules R170, R172). -/
  inReset : Bool
  /-- `CFG.WIDTH`, the strap as sampled at construction (10_state.md rule R23). -/
  width : BitVec 4
  /-- `CFG_OK`, computed at construction (10_state.md rule R25). -/
  cfgOk : Bool
  /-- `BUSY`, 1 while a command is in flight (10_state.md rule R34). -/
  busy : Bool
  /-- The command in flight (10_state.md rules R31, R33); `Command.empty` when there is none. -/
  cmd : Command
  /-- The response handed back at the last completion, none before it and while a command is in flight
  (10_state.md rules R32, R33). -/
  response : Option Response
  /-- The host's coming events, the first one next: the host agent of 10_state.md rule R29. The MODEL'S own field;
  DESIGN CHOICE, log entry 4. -/
  host : List HostEvent
deriving DecidableEq, Repr

/-- Why a step stops. -/
inductive Fault where
  /-- A cell at or beyond the length of an operand was to be read. Raised by the meanings of `WORDAT` and `FIRSTDIV`
  if the word function has no value; SAFE, and never reached: 20_memory.md rule R56 (log entry 11). -/
  | readOutsideOperand
deriving DecidableEq, Repr

/-- Why a command has no meaning. -/
inductive Refusal where
  /-- An instruction whose meaning is not written yet; raised by no arm of this model. SAFE. -/
  | notModelled (mnemonic : String)
  /-- An operand over its limit: "an operand over its limit cannot be expressed in the operand types ...; a model
  refuses it" (00_scope.md rule R9). Raised by the six operations on an operand they take; SAFE (log entry 8). -/
  | operandOverLimit
  /-- A word cell with a non-zero bit above bit `WIDTH - 1`: "lies outside the operand type and a model refuses it"
  (10_state.md rule R30). Raised by `DECODE` and `DECODEALL`; SAFE (log entry 7). -/
  | wordCellOutOfRange
  /-- A header number wider than the format `CMD` (30_encoding.md rule R70). Raised by the step before any
  instruction is known; SAFE (log entry 9). -/
  | headerOutsideFormat
deriving DecidableEq, Repr

/-- What a meaning answers. -/
abbrev StepResult := Host.Outcome State Fault Refusal

/-- The machine right after construction (10_state.md rule R35, 70_reset_and_hazards.md rule R171): no command in
flight, no response pending, reset released. The strap (hence `CFG.WIDTH` and `CFG_OK`), `IDXW` and the host's idle
queue are DESIGN CHOICE, log entries 1, 2 and 4. -/
def State.reset : State :=
  { idxw := Config.idxw
    strap := Config.strap
    inReset := false
    width := Config.strap
    cfgOk := true
    busy := false
    cmd := Command.empty
    response := none
    host := [] }

end Sys2Proof.Machine
end

