-- ==== Sys2Proof/Machine/Flags.lean ====
section
/-! DEFINITION. The block has no flags or condition codes (10_state.md rule R27). What stands here is the one bit it
derives, `CFG_OK` with its output `cfg_err` (rule R25), and the numeric status codes (60_exceptions.md rule R140). -/

namespace Sys2Proof.Machine

/-- "Legal values of `CFG.WIDTH`: exactly 1, 2, 4 and 8" (10_state.md rule R24). -/
def legalWidth (w : BitVec 4) : Bool := w == 1#4 || w == 2#4 || w == 4#4 || w == 8#4

/-- The status output `cfg_err = not CFG_OK` (10_state.md rule R25). -/
def State.cfgErr (s : State) : Bool := !s.cfgOk

/-- The 2-bit code of a status (60_exceptions.md rule R140). -/
def Status.code : Status → Nat
  | .ok => 0
  | .errConfig => 1
  | .errIndex => 2
  | .errOp => 3

end Sys2Proof.Machine
end

