-- ==== Sys2Proof/Machine/Operands.lean ====
section
/-! DEFINITION. Operand arithmetic: the constants of a width, the bit address of a word, the effective end, and which
operands are of the operand types (00_scope.md rules R7, R9; 10_state.md rule R30; 20_memory.md rules R40, R43). -/

namespace Sys2Proof.Machine

/-- `WPB = 8 / WIDTH`, words per byte (00_scope.md rule R7). -/
def wpb (w : Nat) : Nat := 8 / w

/-- `MASK = 2^WIDTH - 1` in a byte (00_scope.md rule R7). -/
def mask (w : Nat) : Byte := BitVec.ofNat 8 (2 ^ w - 1)

/-- `LMAX = 2^(IDXW-4) - 1`, the longest byte string (00_scope.md rule R9). -/
def lmax (idxw : Nat) : Nat := 2 ^ (idxw - 4) - 1

/-- `KMAX = 2^IDXW - 1`, the largest batch count (00_scope.md rule R9). -/
def kmax (idxw : Nat) : Nat := 2 ^ idxw - 1

/-- `totalWords(x) = len(x) * WPB` (00_scope.md rule R13). -/
def totalWords (w : Nat) (x : ByteString) : Nat := x.length * wpb w

/-- `bitOffset(i) = i * WIDTH` (20_memory.md rule R43). -/
def bitOffset (w i : Nat) : Nat := i * w

/-- `byteIndex(i) = bitOffset(i) div 8` (20_memory.md rule R43). -/
def byteIndex (w i : Nat) : Nat := bitOffset w i / 8

/-- `bitWithinByte(i) = bitOffset(i) mod 8`, 0 the most significant bit (20_memory.md rule R43). -/
def bitWithinByte (w i : Nat) : Nat := bitOffset w i % 8

/-- `shift(i) = 8 - WIDTH - bitWithinByte(i)` (20_memory.md rule R43). -/
def shiftOf (w i : Nat) : Nat := 8 - w - bitWithinByte w i

/-- The shift that brings group `k` of a byte to the bottom: `8 - WIDTH - k*WIDTH` (30_encoding.md rules R60, R61). -/
def groupShift (w k : Nat) : Nat := 8 - w - k * w

/-- Group `k` of a byte, right-aligned: `(byte >> (8 - WIDTH - k*WIDTH)) & MASK` (30_encoding.md rule R60). -/
def groupOf (w : Nat) (byte : Byte) (k : Nat) : WordCell := (byte >>> groupShift w k) &&& mask w

/-- The effective end `min(end, totalWords(a), totalWords(b))` (42_comparator.md rule R122). This `min` of unsigned
values IS the named policy `NEG_END_POLICY = CLAMP` (00_scope.md rule R10, 42_comparator.md rule R124): a host's
negative `end` is a value above every total. -/
def effEnd (w : Nat) (a b : ByteString) (endIdx : Nat) : Nat :=
  min endIdx (min (totalWords w a) (totalWords w b))

/-- Whether a byte string is within its limit; the refusal if not (00_scope.md rule R9). -/
def checkBytes (idxw : Nat) (x : ByteString) : Option Refusal :=
  if x.length ≤ lmax idxw then none else some .operandOverLimit

/-- Whether a word sequence is within its limit and every cell of it is a word of this width; the refusal if not
(00_scope.md rule R9, 10_state.md rule R30). -/
def checkWords (idxw w : Nat) (ws : WordSeq) : Option Refusal :=
  if ws.length ≤ wpb w * lmax idxw then
    if ws.all (fun c => decide (c.toNat < 2 ^ w)) then none else some .wordCellOutOfRange
  else some .operandOverLimit

/-- Whether a batch is within its limit and every element passes `check`; the refusal if not (00_scope.md rule R9). -/
def checkBatch {α : Type} (idxw : Nat) (check : α → Option Refusal) (l : List α) : Option Refusal :=
  if l.length ≤ kmax idxw then l.findSome? check else some .operandOverLimit

end Sys2Proof.Machine
end

