-- ==== Sys2Proof/Machine/Ops.lean ====
section
/-! DEFINITION. The shared operations: reading a cell, the word function, ending a command (with a payload or with an
error), the host's events, construction, and whose turn a step is. -/

namespace Sys2Proof.Machine

/-- `MemRead(X:k, 1)`: the cell at index `k`, none outside the operand (00_scope.md rule R14, 20_memory.md R41). -/
def memRead (x : List Byte) (k : Nat) : Option Byte := x[k]?

/-- The word function `W(x, i)` (41_accessor.md rule R111); it reads one byte, at `byteIndex(i)`. -/
def wordOf (w : Nat) (x : ByteString) (i : Nat) : Option WordCell :=
  match memRead x (byteIndex w i) with
  | some byte => some ((byte >>> shiftOf w i) &&& mask w)
  | none => none

/-- `CFG.WIDTH` as a number. -/
abbrev State.w (s : State) : Nat := s.width.toNat

/-- Completion (10_state.md rule R33): the block hands back the response; the command is discarded (rule R20). -/
def State.complete (s : State) (r : Response) : State :=
  { s with busy := false, cmd := Command.empty, response := some r }

/-- `return v`: the command ends with `OK` and a payload (00_scope.md rule R14). -/
def respond (p : Payload) (s : State) : StepResult :=
  .next (s.complete { status := .ok, payload := some p })

/-- `raise E`: TAKING AN ERROR (60_exceptions.md rule R146). The command ends at once, with the status and no payload;
"nothing is saved anywhere; no mode, mask or stack changes; control goes nowhere". There is nothing to return from
(rule R147), so no return operation stands beside it. -/
def raiseError (e : Status) (s : State) : StepResult :=
  .next (s.complete { status := e, payload := none })

/-- `if CFG_OK = 0: raise ERR_CONFIG`, before any operand is read (60_exceptions.md rules R141, R150). -/
def onValid (s : State) (body : StepResult) : StepResult :=
  if s.cfgOk then body else raiseError .errConfig s

/-- An operand outside the operand types is refused by name (00_scope.md rule R9, 10_state.md rule R30). -/
def onOperand (check : Option Refusal) (body : StepResult) : StepResult :=
  match check with
  | some r => .refused r
  | none => body

/-- Issue of a command that the block accepts (10_state.md rule R33). -/
def State.accept (s : State) (c : Command) : State :=
  { s with busy := true, cmd := c, response := none }

/-- Reset is asserted: a command in flight "is abandoned: it gets no response" (70_reset_and_hazards.md rule R172);
the configuration is held until the next construction (10_state.md rule R23; log entry 6). -/
def State.assertReset (s : State) : State :=
  { s with inReset := true, busy := false, cmd := Command.empty, response := none }

/-- Construction: the strap is sampled and `CFG_OK` computed; nothing is in flight or pending
(70_reset_and_hazards.md rules R170, R171). -/
def State.construct (s : State) : State :=
  { s with
    inReset := false, width := s.strap, cfgOk := legalWidth s.strap
    busy := false, cmd := Command.empty, response := none }

/-- Release of the reset input: construction if it was asserted, else nothing (70_reset_and_hazards.md rule R170). -/
def State.releaseReset (s : State) : State :=
  if s.inReset then s.construct else s

/-- The host takes a command to the block: "while reset is asserted the block accepts no command and gives no
response" (70_reset_and_hazards.md rule R170). -/
def State.offer (s : State) (c : Command) : State :=
  if s.inReset then s else s.accept c

/-- The host's next event takes effect; with none, nothing happens (10_state.md rule R29). -/
def State.hostMove (s : State) : State :=
  match s.host with
  | [] => s
  | .driveStrap v :: rest => { s with host := rest, strap := v }
  | .assertReset :: rest => State.assertReset { s with host := rest }
  | .releaseReset :: rest => State.releaseReset { s with host := rest }
  | .issue c :: rest => State.offer { s with host := rest } c
  | .wait :: rest => { s with host := rest }

/-- Whether the host's next event leaves this step to the block: it has none, it waits, or it has a command to issue,
which the block accepts "only after the completion of the previous one" (10_state.md rule R33; log entry 10). -/
def hostYields : List HostEvent → Bool
  | [] => true
  | .wait :: _ => true
  | .issue _ :: _ => true
  | .driveStrap _ :: _ => false
  | .assertReset :: _ => false
  | .releaseReset :: _ => false

/-- Whether the block performs its command in this step (10_state.md rule R29: its only step). -/
def State.blockTurn (s : State) : Bool := s.busy && !s.inReset && hostYields s.host

/-- The state in which the block performs its command: a `wait` of the host is over with this step. -/
def State.afterWait (s : State) : State :=
  match s.host with
  | .wait :: rest => { s with host := rest }
  | _ => s

/-- The header of the command in flight, decoded. -/
def State.fetch (s : State) : Except DecodeError Instr := decodeHeader s.idxw s.cmd.hdr

/-- A header for the next step: the instance is out of reset, the command with this header and the attachments that
stand in the state is in flight, and the host waits for one step. -/
def State.place (s : State) (hdr : Nat) : State :=
  { s with
    inReset := false, busy := true, cmd := { s.cmd with hdr := hdr }, response := none
    host := .wait :: s.host }

end Sys2Proof.Machine
end

