-- ==== Sys2Proof/Machine/Accessor.lean ====
section
/-! DEFINITION. The Accessor family: `WORDAT` (41_accessor.md). -/

namespace Sys2Proof.Machine

/-- `WORDAT s, i` with `i` the `from` field (41_accessor.md rule R110): the bounds test comes before anything is read,
and a failing index is never clamped (rule R112). -/
def execWordat (i : Nat) (s : State) : StepResult :=
  onValid s (onOperand (checkBytes s.idxw s.cmd.a)
    (if i < totalWords s.w s.cmd.a then
      match wordOf s.w s.cmd.a i with
      | some c => respond (.word c) s
      | none => .fault .readOutsideOperand
    else raiseError .errIndex s))

end Sys2Proof.Machine
end

