-- ==== Sys2Proof/Machine/Codec.lean ====
section
/-! DEFINITION. The Codec family: `ENCODE`, `DECODE`, `ENCODEALL`, `DECODEALL` (40_codec.md). -/

namespace Sys2Proof.Machine

/-- The words of one byte: its `WPB` groups, most significant first (30_encoding.md rule R60). -/
def byteGroups (w : Nat) (byte : Byte) : WordSeq := (List.range (wpb w)).map (groupOf w byte)

/-- The word sequence of a byte string (40_codec.md rule R91). -/
def encodeBytes (w : Nat) (s : ByteString) : WordSeq := s.flatMap (byteGroups w)

/-- Byte `m` of a decoded word sequence: word `m*WPB + k` goes to group `k`, and where there is no such word nothing
is read and the bits stay 0 (40_codec.md rules R94, R95). -/
def decodeByte (w : Nat) (ws : WordSeq) (m : Nat) : Byte :=
  (List.range (wpb w)).foldl (fun byte k =>
    match memRead ws (m * wpb w + k) with
    | some c => byte ||| (c <<< groupShift w k)
    | none => byte) 0#8

/-- The byte string of a word sequence, `ceil(N*WIDTH/8)` bytes (40_codec.md rule R94). -/
def decodeWords (w : Nat) (ws : WordSeq) : ByteString :=
  (List.range ((ws.length * w + 7) / 8)).map (decodeByte w ws)

/-- `ENCODE s` (40_codec.md rule R91). -/
def execEncode (s : State) : StepResult :=
  onValid s (onOperand (checkBytes s.idxw s.cmd.a)
    (respond (.words (encodeBytes s.w s.cmd.a)) s))

/-- `DECODE ws` (40_codec.md rules R94, R95). -/
def execDecode (s : State) : StepResult :=
  onValid s (onOperand (checkWords s.idxw s.w s.cmd.ws)
    (respond (.bytes (decodeWords s.w s.cmd.ws)) s))

/-- `ENCODEALL {s0; s1; ...}`: element by element (40_codec.md rules R98, R100); one status for the whole command
(60_exceptions.md rule R152). -/
def execEncodeall (s : State) : StepResult :=
  onValid s (onOperand (checkBatch s.idxw (checkBytes s.idxw) s.cmd.sa)
    (respond (.wordSeqs (s.cmd.sa.map (encodeBytes s.w))) s))

/-- `DECODEALL {ws0; ws1; ...}`: element by element, each padded on its own (40_codec.md rules R99, R100). -/
def execDecodeall (s : State) : StepResult :=
  onValid s (onOperand (checkBatch s.idxw (checkWords s.idxw s.w) s.cmd.sw)
    (respond (.byteStrings (s.cmd.sw.map (decodeWords s.w))) s))

end Sys2Proof.Machine
end

