-- ==== Sys2Proof/Machine/Comparator.lean ====
section
/-! DEFINITION. The Comparator family: `FIRSTDIV` (42_comparator.md). -/

namespace Sys2Proof.Machine

/-- The scan of 42_comparator.md rule R120 from index `i`, `n` indices long: the first index at which the words differ,
else the effective end `eff`; none if a word were read outside an operand. -/
def scanWords (w : Nat) (a b : ByteString) (eff : Nat) : Nat → Nat → Option Nat
  | 0, _ => some eff
  | n + 1, i =>
    match wordOf w a i, wordOf w b i with
    | some x, some y => if x = y then scanWords w a b eff n (i + 1) else some i
    | _, _ => none

/-- The result index of `FIRSTDIV` (42_comparator.md rule R120). `from = end` is tested first, on the operands as given
(rule R125); a `from` at or beyond the effective end scans nothing (rule R126). -/
def firstDiv (w : Nat) (a b : ByteString) (fromIdx endIdx : Nat) : Option Nat :=
  if fromIdx = endIdx then some endIdx
  else scanWords w a b (effEnd w a b endIdx) (effEnd w a b endIdx - fromIdx) fromIdx

/-- `FIRSTDIV a, b, from, end` (42_comparator.md rule R120). -/
def execFirstdiv (fromIdx endIdx : Nat) (s : State) : StepResult :=
  onValid s (onOperand (checkBytes s.idxw s.cmd.a) (onOperand (checkBytes s.idxw s.cmd.b)
    (match firstDiv s.w s.cmd.a s.cmd.b fromIdx endIdx with
    | some r => respond (.index r) s
    | none => .fault .readOutsideOperand)))

end Sys2Proof.Machine
end

