-- ==== Sys2Proof/Machine/Reserved.lean ====
section
/-! DEFINITION. The two reserved operation codes (30_encoding.md rule R74, 60_exceptions.md rule R143). -/

namespace Sys2Proof.Machine

/-- `op = 6`: status `ERR_OP`, no operand read, `ERR_CONFIG` first (60_exceptions.md rule R150). -/
def execReserved6 (s : State) : StepResult := onValid s (raiseError .errOp s)

/-- `op = 7`: status `ERR_OP`, no operand read, `ERR_CONFIG` first (60_exceptions.md rule R150). -/
def execReserved7 (s : State) : StepResult := onValid s (raiseError .errOp s)

end Sys2Proof.Machine
end

