-- ==== Sys2Proof/Machine/Dispatch.lean ====
section
/-! DEFINITION. One arm per constructor of Instr. Fields an operation ignores (30_encoding.md rule R73) are not passed on. -/

namespace Sys2Proof.Machine

def exec (i : Instr) (s : State) : Host.Outcome State Fault Refusal :=
  match i with
  | .encode _ _ => Sys2Proof.Machine.execEncode s
  | .decode _ _ => Sys2Proof.Machine.execDecode s
  | .encodeall _ _ => Sys2Proof.Machine.execEncodeall s
  | .decodeall _ _ => Sys2Proof.Machine.execDecodeall s
  | .wordat f _ => Sys2Proof.Machine.execWordat f s
  | .firstdiv f e => Sys2Proof.Machine.execFirstdiv f e s
  | .reserved6 _ _ => Sys2Proof.Machine.execReserved6 s
  | .reserved7 _ _ => Sys2Proof.Machine.execReserved7 s

end Sys2Proof.Machine
end

