-- ==== Sys2Proof/Machine/Step.lean ====
section
/-! DEFINITION. One step: the block performs the command in flight, or the host's next event takes effect. -/

namespace Sys2Proof.Machine

/-- One step. On the block's turn the command in flight is performed whole (10_state.md rules R29, R33); a header number
outside the format `CMD` is refused by name (log entry 9). Otherwise the host moves. -/
def step (s : State) : Host.Outcome State Fault Refusal :=
  if s.blockTurn then
    match s.fetch with
    | .ok i => exec i s.afterWait
    | .error _ => .refused .headerOutsideFormat
  else .next s.hostMove

/-- The state whose next step performs the header with the low `nbits` bits of `w`, all other bits 0, on the attachments
that stand in the state (log entry 13). -/
def State.withFetchWord (s : State) (nbits w : Nat) : State := s.place (w % 2 ^ nbits)

end Sys2Proof.Machine
end

