-- ==== Sys2Proof/Machine/Response.lean ====
section
/-! DEFINITION. The response word `RSP` and which numbers may stand on a carrier for a response (30_encoding.md rule R78,
10_state.md rule R32, 93_implementation_defined.md U6). -/

namespace Sys2Proof.Machine

/-- What the `value` field holds for an `OK` response (30_encoding.md rule R78): the word, the index, the length of the
payload sequence, or the count of payload elements. -/
def Payload.value : Payload → Nat
  | .words ws => ws.length
  | .bytes s => s.length
  | .wordSeqs l => l.length
  | .byteStrings l => l.length
  | .word c => c.toNat
  | .index n => n

/-- The response word of a status and a `value` field: `status` in bits `[1:0]`, `value` in bits `[IDXW+1:2]`. -/
def rspWord (st : Status) (value : Nat) : Nat := (value <<< 2) ||| st.code

/-- The `status` field of a response word. -/
def rspStatus (word : Nat) : Nat := word % 4

/-- The `value` field of a response word. -/
def rspValue (idxw word : Nat) : Nat := (word >>> 2) % 2 ^ idxw

/-- Whether a response word of `IDXW + 2` bits may stand on the carrier for a response. With `OK` the `value` field is
fixed; with any other status it means nothing and may be anything (log entry 12). A word of the machine that does not
fit the `value` field (`WIDTH = 8` and `IDXW < 8`) has no stated field either: left free too. -/
def Response.carriedBy (idxw : Nat) (r : Response) (word : Nat) : Bool :=
  decide (word < 2 ^ (idxw + 2)) && decide (rspStatus word = r.status.code) &&
    match r.payload with
    | some p => !decide (p.value < 2 ^ idxw) || decide (rspValue idxw word = p.value)
    | none => true

end Sys2Proof.Machine
end

