-- ==== Sys2Proof/Machine/Assembler.lean ====
section
/-! DEFINITION. The line syntax of commands and responses (30_encoding.md rules R80 to R82): what a line says, the command
it assembles to, the literals, and how a response is written. The block never sees text: the host does (rule R80). -/

namespace Sys2Proof.Machine

/-- A line of a program: the six operations and no pseudo-instruction (30_encoding.md rules R80, R82). An index is an
integer as it is written; `-n` stands for `2^IDXW - n` (rule R81). -/
inductive AsmLine where
  | encode (s : ByteString)
  | decode (ws : WordSeq)
  | encodeall (l : List ByteString)
  | decodeall (l : List WordSeq)
  | wordat (s : ByteString) (i : Int)
  | firstdiv (a b : ByteString) (fromIdx endIdx : Int)
deriving DecidableEq, Repr

/-- The command of a line; unused fields are zero ("a host should drive zeros", 30_encoding.md rule R73). None when an
index has no `IDXW`-bit pattern. -/
def AsmLine.assemble (idxw : Nat) : AsmLine → Option Command
  | .encode s => some { Command.empty with hdr := encodeHeader idxw (.encode 0 0), a := s }
  | .decode ws => some { Command.empty with hdr := encodeHeader idxw (.decode 0 0), ws := ws }
  | .encodeall l => some { Command.empty with hdr := encodeHeader idxw (.encodeall 0 0), sa := l }
  | .decodeall l => some { Command.empty with hdr := encodeHeader idxw (.decodeall 0 0), sw := l }
  | .wordat s i =>
    match hostIndex idxw i with
    | some n => some { Command.empty with hdr := encodeHeader idxw (.wordat n 0), a := s }
    | none => none
  | .firstdiv a b f e =>
    match hostIndex idxw f, hostIndex idxw e with
    | some m, some n => some { Command.empty with hdr := encodeHeader idxw (.firstdiv m n), a := a, b := b }
    | _, _ => none

/-- A program: the width stated at the top and the lines, issued in order to one instance (30_encoding.md rule R80). -/
structure AsmProgram where
  width : BitVec 4
  lines : List AsmLine
deriving DecidableEq, Repr

/-- A freshly constructed instance with this strap, and a host about to issue the program's commands in order. -/
def AsmProgram.start (idxw : Nat) (p : AsmProgram) : Option State :=
  match p.lines.mapM (AsmLine.assemble idxw) with
  | some cs =>
    some { State.construct { State.reset with idxw := idxw, strap := p.width } with
      host := cs.map HostEvent.issue }
  | none => none

/-- A token of a line. -/
inductive Tok where
  | word (cs : List Char)
  | str (cs : List Char)
  | sym (c : Char)
deriving DecidableEq, Repr

/-- The double quote. -/
def chQuote : Char := Char.ofNat 34

/-- The opening brace of a sequence of sequences. -/
def chOpen : Char := Char.ofNat 123

/-- The closing brace of a sequence of sequences. -/
def chClose : Char := Char.ofNat 125

/-- A finished run of letters and digits, read in reverse, before the tokens that follow it. -/
def flushWord (cur : List Char) (rest : List Tok) : List Tok :=
  if cur.isEmpty then rest else .word cur.reverse :: rest

/-- The tokens of a line: quoted strings, runs of letters and digits, and single symbols; spaces separate. `str` holds an
open quoted string in reverse, `cur` an open run in reverse. -/
def lexLine (str : Option (List Char)) (cur : List Char) : List Char → Option (List Tok)
  | [] => if str.isSome then none else some (flushWord cur [])
  | c :: cs =>
    match str with
    | some acc =>
      if c = chQuote then (lexLine none [] cs).map (fun r => .str acc.reverse :: r)
      else lexLine (some (c :: acc)) [] cs
    | none =>
      if c = ' ' then (lexLine none [] cs).map (flushWord cur)
      else if c = chQuote then (lexLine (some []) [] cs).map (flushWord cur)
      else if c.isAlphanum then lexLine none (c :: cur) cs
      else (lexLine none [] cs).map (fun r => flushWord cur (.sym c :: r))

/-- The value of a digit in base 16, letters of either case. -/
def hexDigit (c : Char) : Option Nat :=
  if '0' ≤ c ∧ c ≤ '9' then some (c.toNat - 48)
  else if 'A' ≤ c ∧ c ≤ 'F' then some (c.toNat - 55)
  else if 'a' ≤ c ∧ c ≤ 'f' then some (c.toNat - 87)
  else none

/-- The value of a digit in base 10. -/
def decDigit (c : Char) : Option Nat :=
  if '0' ≤ c ∧ c ≤ '9' then some (c.toNat - 48) else none

/-- The number of a run of digits in a base, after the digits already read. -/
def numeral (base : Nat) (digit : Char → Option Nat) : Nat → List Char → Option Nat
  | acc, [] => some acc
  | acc, c :: cs =>
    match digit c with
    | some d => numeral base digit (acc * base + d) cs
    | none => none

/-- A decimal number, at least one digit. -/
def decimal (cs : List Char) : Option Nat :=
  if cs.isEmpty then none else numeral 10 decDigit 0 cs

/-- An unsigned index literal: decimal or `0x` hexadecimal (30_encoding.md rule R81). -/
def unsignedLit : List Char → Option Nat
  | '0' :: 'x' :: c :: cs => numeral 16 hexDigit 0 (c :: cs)
  | cs => decimal cs

/-- The characters of a quoted string as ASCII codes (00_scope.md rule R13). -/
def asciiBytes (cs : List Char) : Option ByteString :=
  if cs.all (fun c => decide (c.toNat < 128)) then some (cs.map (fun c => BitVec.ofNat 8 c.toNat)) else none

/-- The bytes of an angle-bracket literal, after the bracket: two hexadecimal digits each. -/
def hexBytes : List Tok → Option (ByteString × List Tok)
  | .sym '>' :: rest => some ([], rest)
  | .word [h, l] :: rest =>
    match hexDigit h, hexDigit l, hexBytes rest with
    | some x, some y, some (bs, r) => some (BitVec.ofNat 8 (16 * x + y) :: bs, r)
    | _, _, _ => none
  | _ => none

/-- A byte-string literal: a quoted string or hexadecimal bytes in angle brackets (30_encoding.md rule R81). -/
def bytesLit : List Tok → Option (ByteString × List Tok)
  | .str cs :: rest => (asciiBytes cs).map (fun bs => (bs, rest))
  | .sym '<' :: rest => hexBytes rest
  | _ => none

/-- One decimal word in its 8-bit cell. -/
def wordLit (cs : List Char) : Option WordCell :=
  match decimal cs with
  | some n => if n < 256 then some (BitVec.ofNat 8 n) else none
  | none => none

/-- The words of a bracket literal, after the bracket or a comma. -/
def wordItems : List Tok → Option (WordSeq × List Tok)
  | .word cs :: .sym ',' :: rest =>
    match wordLit cs, wordItems rest with
    | some c, some (ws, r) => some (c :: ws, r)
    | _, _ => none
  | .word cs :: .sym ']' :: rest => (wordLit cs).map (fun c => ([c], rest))
  | _ => none

/-- A word-sequence literal: decimal words in square brackets (30_encoding.md rule R81). -/
def wordsLit : List Tok → Option (WordSeq × List Tok)
  | .sym '[' :: .sym ']' :: rest => some ([], rest)
  | .sym '[' :: rest => wordItems rest
  | _ => none

/-- The elements of a batch literal, after the brace or a semicolon; at most `n` of them. -/
def batchItems {α : Type} (item : List Tok → Option (α × List Tok)) : Nat → List Tok → Option (List α × List Tok)
  | 0, _ => none
  | n + 1, toks =>
    match item toks with
    | some (x, .sym c :: rest) =>
      if c = chClose then some ([x], rest)
      else if c = ';' then (batchItems item n rest).map (fun p => (x :: p.1, p.2))
      else none
    | _ => none

/-- A batch literal: elements in braces with semicolons (30_encoding.md rule R81). -/
def batchLit {α : Type} (item : List Tok → Option (α × List Tok)) : List Tok → Option (List α × List Tok)
  | .sym o :: .sym c :: rest =>
    if o = chOpen then
      if c = chClose then some ([], rest) else batchItems item (rest.length + 1) (.sym c :: rest)
    else none
  | .sym o :: rest => if o = chOpen then batchItems item rest.length rest else none
  | _ => none

/-- An index literal: unsigned, or a decimal with a minus sign (30_encoding.md rule R81). -/
def indexLit : List Tok → Option (Int × List Tok)
  | .sym '-' :: .word cs :: rest => (decimal cs).map (fun n => (-(n : Int), rest))
  | .word cs :: rest => (unsignedLit cs).map (fun n => ((n : Int), rest))
  | _ => none

/-- An operand that ends the line. -/
def lastOperand {α : Type} (r : Option (α × List Tok)) : Option α :=
  match r with
  | some (x, []) => some x
  | _ => none

/-- An operand and what follows its comma. -/
def commaAfter {α : Type} (r : Option (α × List Tok)) : Option (α × List Tok) :=
  match r with
  | some (x, .sym ',' :: rest) => some (x, rest)
  | _ => none

/-- A line after its mnemonic `WORDAT`: `s, i`. -/
def wordatOperands (toks : List Tok) : Option AsmLine :=
  match commaAfter (bytesLit toks) with
  | some (s, rest) => (lastOperand (indexLit rest)).map (AsmLine.wordat s)
  | none => none

/-- A line after its mnemonic `FIRSTDIV`: `a, b, from, end`. -/
def firstdivOperands (toks : List Tok) : Option AsmLine :=
  match commaAfter (bytesLit toks) with
  | some (a, r1) =>
    match commaAfter (bytesLit r1) with
    | some (b, r2) =>
      match commaAfter (indexLit r2) with
      | some (f, r3) => (lastOperand (indexLit r3)).map (AsmLine.firstdiv a b f)
      | none => none
    | none => none
  | none => none

/-- A line: its mnemonic and its operands (30_encoding.md rule R80). -/
def parseLine (text : List Char) : Option AsmLine :=
  match lexLine none [] text with
  | some (.word m :: toks) =>
    if m = "ENCODE".toList then (lastOperand (bytesLit toks)).map .encode
    else if m = "DECODE".toList then (lastOperand (wordsLit toks)).map .decode
    else if m = "ENCODEALL".toList then (lastOperand (batchLit bytesLit toks)).map .encodeall
    else if m = "DECODEALL".toList then (lastOperand (batchLit wordsLit toks)).map .decodeall
    else if m = "WORDAT".toList then wordatOperands toks
    else if m = "FIRSTDIV".toList then firstdivOperands toks
    else none
  | _ => none

/-- The width line at the top of a program: `WIDTH = n`, `n` a value the strap can carry. -/
def parseWidth (text : List Char) : Option (BitVec 4) :=
  match lexLine none [] text with
  | some [.word m, .sym '=', .word n] =>
    if m = "WIDTH".toList then
      match decimal n with
      | some v => if v < 16 then some (BitVec.ofNat 4 v) else none
      | none => none
    else none
  | _ => none

/-- A program text: the width line, then one command a line (30_encoding.md rule R80). -/
def parseProgram : List (List Char) → Option AsmProgram
  | top :: lines =>
    match parseWidth top, lines.mapM parseLine with
    | some w, some ls => some { width := w, lines := ls }
    | _, _ => none
  | [] => none

/-- A base-16 digit, capital. -/
def hexChar (n : Nat) : Char := if n < 10 then Char.ofNat (48 + n) else Char.ofNat (55 + n)

/-- A byte string as hexadecimal bytes in angle brackets. -/
def showBytes (s : ByteString) : List Char :=
  '<' :: List.intercalate [' '] (s.map (fun x => [hexChar (x.toNat / 16), hexChar (x.toNat % 16)])) ++ ['>']

/-- A word sequence as decimal words in square brackets. -/
def showWords (ws : WordSeq) : List Char :=
  '[' :: List.intercalate [','] (ws.map (fun c => Nat.toDigits 10 c.toNat)) ++ [']']

/-- A sequence of sequences in braces with semicolons. -/
def showBatch (l : List (List Char)) : List Char := chOpen :: List.intercalate [';', ' '] l ++ [chClose]

/-- A payload as the literals of 30_encoding.md rule R81. -/
def Payload.text : Payload → List Char
  | .words ws => showWords ws
  | .bytes s => showBytes s
  | .wordSeqs l => showBatch (l.map showWords)
  | .byteStrings l => showBatch (l.map showBytes)
  | .word c => Nat.toDigits 10 c.toNat
  | .index n => Nat.toDigits 10 n

/-- A response as it is written: `-> OK payload`, or `->` and the error's name (30_encoding.md rule R80). -/
def Response.text (r : Response) : List Char :=
  match r.status, r.payload with
  | .ok, some p => "-> OK ".toList ++ p.text
  | .ok, none => "-> OK".toList
  | .errConfig, _ => "-> ERR_CONFIG".toList
  | .errIndex, _ => "-> ERR_INDEX".toList
  | .errOp, _ => "-> ERR_OP".toList

end Sys2Proof.Machine
end

