-- ==== Sys2Proof/Machine/FastPath.lean ====
section
/-! DEFINITION. The comparator's optional fast path (42_comparator.md rule R127): whole bytes where a whole byte lies in
the range, single words at the boundaries. The machine does not use it (92_eei_decisions.md D23); it stands here so that
a statement can say that it is invisible. -/

namespace Sys2Proof.Machine

/-- The least group number at which two bytes differ, `WPB` if none does (42_comparator.md rule R127). -/
def firstDiffGroup (w : Nat) (x y : Byte) : Nat :=
  ((List.range (wpb w)).takeWhile (fun k => groupOf w x k == groupOf w y k)).length

/-- The fast scan from index `i` to `eff`, at most `n` comparisons: at a byte-aligned index with a whole byte below `eff`
the two bytes are compared whole, and when they differ the least differing group is found; elsewhere one word. -/
def fastScan (w : Nat) (a b : ByteString) (eff : Nat) : Nat → Nat → Option Nat
  | 0, _ => some eff
  | n + 1, i =>
    if eff ≤ i then some eff
    else if i % wpb w = 0 ∧ i + wpb w ≤ eff then
      match memRead a (i / wpb w), memRead b (i / wpb w) with
      | some x, some y =>
        if x = y then fastScan w a b eff n (i + wpb w) else some (i + firstDiffGroup w x y)
      | _, _ => none
    else
      match wordOf w a i, wordOf w b i with
      | some x, some y => if x = y then fastScan w a b eff n (i + 1) else some i
      | _, _ => none

/-- `FIRSTDIV` with the fast scan in place of the word-by-word one. -/
def firstDivFast (w : Nat) (a b : ByteString) (fromIdx endIdx : Nat) : Option Nat :=
  if fromIdx = endIdx then some endIdx
  else fastScan w a b (effEnd w a b endIdx) (effEnd w a b endIdx - fromIdx) fromIdx

end Sys2Proof.Machine
end

