-- ==== Sys2Proof/Safety.lean ====
section
/-! DEFINITION. The states a run can reach (`State.inv`), and what a correct host's run looks like (60_exceptions.md rule
R148). -/

namespace Sys2Proof.Machine

/-- A payload is a value of the result types of 10_state.md rule R30. -/
def Payload.typed (idxw w : Nat) : Payload → Bool
  | .words ws => (checkWords idxw w ws).isNone
  | .bytes s => (checkBytes idxw s).isNone
  | .wordSeqs l => (checkBatch idxw (checkWords idxw w) l).isNone
  | .byteStrings l => (checkBatch idxw (checkBytes idxw) l).isNone
  | .word c => decide (c.toNat < 2 ^ w)
  | .index n => decide (n < 2 ^ idxw)

/-- A response is well formed on an instance: a payload exactly with `OK` (10_state.md rule R32), of the result types
(rule R30), and `ERR_CONFIG` exactly on an invalid instance (60_exceptions.md rule R151). -/
def Response.typed (idxw w : Nat) (cfgOk : Bool) (r : Response) : Bool :=
  (match r.status, r.payload with
    | .ok, some p => p.typed idxw w
    | .ok, none => false
    | _, some _ => false
    | _, none => true) &&
  (decide (r.status = .errConfig) == !cfgOk)

/-- The invariant of the instance: `IDXW >= 5` (00_scope.md rule R8); `CFG_OK` is the validity of `CFG.WIDTH`
(10_state.md rule R25); no command record without `BUSY` (rule R35); nothing in flight or pending while reset is asserted
(70_reset_and_hazards.md rule R170); no response before completion (10_state.md rule R33); a response is well formed. -/
def State.inv (s : State) : Bool :=
  decide (5 ≤ s.idxw) &&
  (s.cfgOk == legalWidth s.width) &&
  (s.busy || decide (s.cmd = Command.empty)) &&
  (!s.inReset || (!s.busy && s.response.isNone)) &&
  (!s.busy || s.response.isNone) &&
  s.response.all (Response.typed s.idxw s.w s.cfgOk)

/-- The response the host sees, if any, is not an error: what "a claim about a host program that is meant to be correct
will want" of every state of its run (60_exceptions.md rule R148). -/
def State.noError (s : State) : Bool := s.response.all (fun r => decide (r.status = .ok))

/-- The next `n` steps are taken and no response among them is an error. -/
def safeRun : Nat → State → Bool
  | 0, s => s.noError
  | n + 1, s =>
    s.noError &&
    match step s with
    | .next t => safeRun n t
    | .fault _ => false
    | .refused _ => false

end Sys2Proof.Machine
end

