-- ==== Sys2Proof/Certificates/Slice0/Obligations.lean ====
section
/-! DEFINITION. The statements for the provers, from the numbered rules of spec/. -/

namespace Sys2Proof.Spec

open Sys2Proof.Machine

/-- `MASK` as the spec writes it, in a byte (00_scope.md rule R7). -/
def maskByte (w : Nat) : Byte := BitVec.ofNat 8 (2 ^ w - 1)

/-- `W(x, i)` as 41_accessor.md rule R111 writes it, over any cell `x[..]` (a reader of it has `i < totalWords`). -/
def word (w : Nat) (x : ByteString) (i : Nat) : WordCell :=
  (x.getD (i * w / 8) 0#8 >>> (8 - w - i * w % 8)) &&& maskByte w

/-- The state with another byte string as attachment `A`. -/
def withA (s : State) (x : ByteString) : State := { s with cmd := { s.cmd with a := x } }

/-- The state with another word sequence as attachment `WS`. -/
def withWS (s : State) (ws : WordSeq) : State := { s with cmd := { s.cmd with ws := ws } }

/-- A completed command: the response of status `OK` with this payload, nothing else changed but the command gone (the
empty record in its place is the model's way to say so: log entry 5). -/
def ok (s : State) (p : Payload) : StepResult :=
  .next { s with busy := false, cmd := Command.empty, response := some { status := .ok, payload := some p } }

/-- A failed command: the response of this status without payload, nothing else changed but the command gone (log
entry 5, as for `ok`). -/
def err (s : State) (e : Status) : StepResult :=
  .next { s with busy := false, cmd := Command.empty, response := some { status := e, payload := none } }

/-- A word sequence of the operand types at a width (00_scope.md rule R9, 10_state.md rule R30). -/
def wordSeqTyped (idxw w : Nat) (ws : WordSeq) : Prop :=
  ws.length ≤ 8 / w * (2 ^ (idxw - 4) - 1) ∧ ∀ c ∈ ws, c.toNat < 2 ^ w

/-- A byte string of the operand types (00_scope.md rule R9). -/
def byteStringTyped (idxw : Nat) (x : ByteString) : Prop := x.length ≤ 2 ^ (idxw - 4) - 1

/-- The attachments an operation takes are of the operand types (00_scope.md rule R9, 10_state.md rule R30). -/
def operandsTyped (idxw w : Nat) (i : Instr) (c : Command) : Prop :=
  match i with
  | .encode _ _ => byteStringTyped idxw c.a
  | .decode _ _ => wordSeqTyped idxw w c.ws
  | .encodeall _ _ => c.sa.length ≤ 2 ^ idxw - 1 ∧ ∀ x ∈ c.sa, byteStringTyped idxw x
  | .decodeall _ _ => c.sw.length ≤ 2 ^ idxw - 1 ∧ ∀ x ∈ c.sw, wordSeqTyped idxw w x
  | .wordat _ _ => byteStringTyped idxw c.a
  | .firstdiv _ _ => byteStringTyped idxw c.a ∧ byteStringTyped idxw c.b
  | .reserved6 _ _ => True
  | .reserved7 _ _ => True

/-- Two commands agree on all that an operation uses (30_encoding.md rules R72, R73). -/
def sameUsed (i j : Instr) (c d : Command) : Prop :=
  match i, j with
  | .encode _ _, .encode _ _ => c.a = d.a
  | .decode _ _, .decode _ _ => c.ws = d.ws
  | .encodeall _ _, .encodeall _ _ => c.sa = d.sa
  | .decodeall _ _, .decodeall _ _ => c.sw = d.sw
  | .wordat f _, .wordat g _ => f = g ∧ c.a = d.a
  | .firstdiv f e, .firstdiv g h => f = g ∧ e = h ∧ c.a = d.a ∧ c.b = d.b
  | .reserved6 _ _, .reserved6 _ _ => True
  | .reserved7 _ _, .reserved7 _ _ => True
  | _, _ => False

/-- Two answers show the host the same: the same response, the same fault or the same refusal. -/
def sameAnswer (x y : StepResult) : Prop :=
  match x, y with
  | .next s, .next t => s.response = t.response
  | .fault p, .fault q => p = q
  | .refused p, .refused q => p = q
  | _, _ => False

/-- A command that the instance can be given: a header of the format and, on a valid instance, operands of the types. -/
def commandTyped (s : State) (c : Command) : Prop :=
  ∃ i, decodeHeader s.idxw c.hdr = .ok i ∧ (s.cfgOk = true → operandsTyped s.idxw s.width.toNat i c)

/-- A memory that holds an operand: cell `m` of it is cell `m` of the operand, below its length. Beyond, it holds
anything. -/
def holds (cells : Nat → Byte) (x : List Byte) : Prop := ∀ m, m < x.length → x[m]? = some (cells m)

/-- The words of cells `0 .. n-1` of a memory that holds a byte string, as 40_codec.md rule R91 computes them. -/
def encodeCells (w n : Nat) (cells : Nat → Byte) : WordSeq :=
  (List.range n).flatMap fun m =>
    (List.range (8 / w)).map fun k => (cells m >>> (8 - w - k * w)) &&& maskByte w

/-- The bytes of cells `0 .. n-1` of a memory that holds a word sequence, as 40_codec.md rules R94 and R95 compute
them: a group with no word stays zero. -/
def decodeCells (w n : Nat) (cells : Nat → Byte) : ByteString :=
  (List.range ((n * w + 7) / 8)).map fun m =>
    (List.range (8 / w)).foldl (fun byte k =>
      if m * (8 / w) + k < n then byte ||| (cells (m * (8 / w) + k) <<< (8 - w - k * w)) else byte) 0#8

/-- A host that has a command for an idle instance: no command in flight, reset released. -/
def idle (s : State) : Prop := s.inv = true ∧ s.busy = false ∧ s.inReset = false

/-- A byte string that is a legal attachment of a valid instance, the hypotheses of the operations on `A`. -/
def validA (s : State) : Prop := s.inv = true ∧ s.cfgOk = true ∧ byteStringTyped s.idxw s.cmd.a

/-- The hypotheses of `FIRSTDIV`: a valid instance and two byte strings of the types. -/
def validAB (s : State) : Prop := validA s ∧ byteStringTyped s.idxw s.cmd.b

/-- `min(ta, tb)` (42_comparator.md rule R120). -/
def minTotal (s : State) : Nat :=
  min (s.cmd.a.length * (8 / s.width.toNat)) (s.cmd.b.length * (8 / s.width.toNat))

/-- The words of both operands agree at an index. -/
def agreeAt (s : State) (i : Nat) : Prop :=
  word s.width.toNat s.cmd.a i = word s.width.toNat s.cmd.b i

end Sys2Proof.Spec

open Sys2Proof Sys2Proof.Machine

/-! ### The instance: reset, invariant, construction, protocol -/

/-- 10_state.md rule R35: the values after construction. The strap's level, hence the width, is the model's choice (log
entry 2), as are `IDXW` (log entry 1) and the idle host (log entry 4). -/
def Obligations.ResetIsAFreshInstance : Prop :=
  State.reset.busy = false ∧ State.reset.response = none ∧ State.reset.inReset = false ∧
    State.reset.cmd = Command.empty ∧ State.reset.width = State.reset.strap ∧
    (State.reset.cfgOk = true ↔ State.reset.width.toNat ∈ [1, 2, 4, 8]) ∧
    5 ≤ State.reset.idxw ∧ State.reset.inv = true

/-- The invariant `State.inv`, which is the model's. From the rules: `CFG_OK` is the validity of `CFG.WIDTH` (R25), nothing
is in flight under reset (R170), a command has no response before its completion (R33), a payload stands exactly with `OK`
and is of the result types (R30, R32), `ERR_CONFIG` exactly on an invalid instance (R151), `IDXW` at least 5 (R8). The model's own choices (DEDUCED), which no rule states so: the record is
`Command.empty` without `BUSY` (log entry 5), a response that stood is gone under reset (log entry 6), and one that stood is
gone while the next command is in flight (log entry 15). -/
def Obligations.StepKeepsTheInvariant : Prop :=
  ∀ s t : State, s.inv = true → step s = .next t → t.inv = true

/-- 70_reset_and_hazards.md rules R170, R171: construction samples the strap, computes `CFG_OK`, and leaves nothing in
flight or pending. -/
def Obligations.ConstructionSamplesTheStrap : Prop :=
  ∀ (s : State) (rest : List HostEvent), s.inReset = true → s.host = .releaseReset :: rest →
    ∃ t, step s = .next t ∧
      t = { s with
            host := rest, inReset := false, width := s.strap
            cfgOk := decide (s.strap.toNat ∈ [1, 2, 4, 8])
            busy := false, cmd := Command.empty, response := none } ∧
      (t.cfgErr = true ↔ s.strap.toNat ∉ [1, 2, 4, 8])

/-- 70_reset_and_hazards.md rule R173: the width, and `CFG_OK` with it, can change only by a new construction. -/
def Obligations.WidthChangesOnlyByConstruction : Prop :=
  ∀ s t : State, step s = .next t →
    t.idxw = s.idxw ∧
    (t.width ≠ s.width ∨ t.cfgOk ≠ s.cfgOk →
      s.inReset = true ∧ (∃ rest, s.host = .releaseReset :: rest) ∧ t.width = s.strap)

/-- 93_implementation_defined.md U14, 10_state.md rule R23: driving the strap has no effect until the next construction,
also while a command is in flight. -/
def Obligations.DrivingTheStrapChangesNothingElse : Prop :=
  ∀ (s : State) (v : BitVec 4) (rest : List HostEvent), s.host = .driveStrap v :: rest →
    step s = .next { s with host := rest, strap := v }

/-- 70_reset_and_hazards.md rule R172: a command in flight when reset is asserted is abandoned, without a response; after
the following construction the block knows nothing of it. The first clause is the assertion, whatever the host does next;
the second an assertion followed at once by the release. The model's own choices (DEDUCED): a response that stands on an
idle instance is taken away, and `CFG.WIDTH` and `CFG_OK` are held, until the construction (log entry 6); the record of the
abandoned command is the empty one (log entry 5). -/
def Obligations.ResetAbandonsTheCommand : Prop :=
  (∀ (s : State) (rest : List HostEvent), s.host = .assertReset :: rest →
    step s = .next { s with
      host := rest, inReset := true, busy := false, cmd := Command.empty, response := none }) ∧
  (∀ (s : State) (rest : List HostEvent), s.host = .assertReset :: .releaseReset :: rest →
    Host.Core.run core 2 s = .next { s with
      host := rest, inReset := false, width := s.strap
      cfgOk := decide (s.strap.toNat ∈ [1, 2, 4, 8])
      busy := false, cmd := Command.empty, response := none })

/-- 10_state.md rule R33: issue to an idle instance puts the command in flight. That it clears the response that still
stands is the model's choice (log entry 15, DEDUCED): no rule says how long a response stands. -/
def Obligations.IssuePutsTheCommandInFlight : Prop :=
  ∀ (s : State) (c : Command) (rest : List HostEvent),
    s.busy = false → s.inReset = false → s.host = .issue c :: rest →
    step s = .next { s with host := rest, busy := true, cmd := c, response := none }

/-- 70_reset_and_hazards.md rule R170: "while reset is asserted the block accepts no command and gives no response". That
the command is taken off the host's queue and gone, rather than kept there for later, is the model's choice (log entry 10,
DEDUCED). -/
def Obligations.NoCommandIsAcceptedUnderReset : Prop :=
  ∀ (s : State) (c : Command) (rest : List HostEvent), s.inReset = true → s.host = .issue c :: rest →
    step s = .next { s with host := rest }

/-- 10_state.md rule R33: a new command is accepted only after the completion of the previous one; the step completes the
one in flight, hands its response back, and leaves the host's command where it is (log entry 10). -/
def Obligations.SecondCommandWaitsForTheFirst : Prop :=
  ∀ (s t : State) (c : Command) (rest : List HostEvent),
    s.busy = true → s.inReset = false → s.host = .issue c :: rest → step s = .next t →
    t.host = .issue c :: rest ∧ t.busy = false ∧ t.response.isSome = true ∧ t.cmd = Command.empty

/-- 10_state.md rule R29: the block takes no step of its own accord. -/
def Obligations.IdleBlockDoesNothing : Prop :=
  ∀ s : State, s.host = [] → s.busy = false → step s = .next s

/-- 10_state.md rules R29, R33: on the block's turn the step is exactly the instruction in flight, decoded; only a `wait`
of the host is taken off its queue. -/
def Obligations.StepRunsTheDecodedCommand : Prop :=
  ∀ (s : State) (i : Instr), s.busy = true → s.inReset = false → decodeHeader s.idxw s.cmd.hdr = .ok i →
    (s.host = [] → step s = exec i s) ∧
    (∀ c rest, s.host = .issue c :: rest → step s = exec i s) ∧
    (∀ rest, s.host = .wait :: rest → step s = exec i { s with host := rest })

/-- The model's choice (log entry 9): a number with a bit above the format `CMD` is no header and is refused by name. -/
def Obligations.WideHeaderIsRefused : Prop :=
  ∀ s : State, s.busy = true → s.inReset = false → hostYields s.host = true →
    2 ^ (2 * s.idxw + 3) ≤ s.cmd.hdr → step s = .refused .headerOutsideFormat

/-- 10_state.md rule R33 "every issued command completes", 60_exceptions.md rule R147: two steps after its issue a command
has its response, and the instance is exactly as it was but for the response. -/
def Obligations.IssuedCommandCompletes : Prop :=
  ∀ (s : State) (c : Command) (rest : List HostEvent), Spec.idle s → Spec.commandTyped s c →
    s.host = .issue c :: .wait :: rest →
    ∃ r, Host.Core.run core 2 s = .next { s with host := rest, response := some r }

/-- 60_exceptions.md rule R147, 10_state.md rule R21: the next command is performed as if the one before it had never been
issued, also when that one failed. -/
def Obligations.NextCommandIgnoresTheOneBefore : Prop :=
  ∀ (s : State) (c d : Command) (rest : List HostEvent), Spec.idle s → Spec.commandTyped s c →
    Host.Core.run core 4 { s with host := .issue c :: .wait :: .issue d :: .wait :: rest } =
      Host.Core.run core 2 { s with host := .issue d :: .wait :: rest }

/-! ### Headers, response words, index literals -/

/-- For every well-formed instruction, decoding its header gives it back, every operand at every value. -/
def Obligations.DecodeOfEncodeIsTheInstruction : Prop :=
  ∀ (idxw : Nat) (i : Instr), i.wellFormed idxw = true → decodeHeader idxw (encodeHeader idxw i) = .ok i

/-- Every number of `2*IDXW + 3` bits is the header of exactly one well-formed instruction (30_encoding.md rules R74,
R76: the decoder is total). -/
def Obligations.EveryHeaderHasOneInstruction : Prop :=
  ∀ idxw hdr : Nat, hdr < 2 ^ (2 * idxw + 3) →
    ∃ i, decodeHeader idxw hdr = .ok i ∧ i.wellFormed idxw = true ∧ encodeHeader idxw i = hdr ∧
      ∀ j, j.wellFormed idxw = true → encodeHeader idxw j = hdr → j = i

/-- 30_encoding.md rules R70, R71, R74: the header word of `op`, `from`, `end` decodes to the operation of the table, with
its fields whole. -/
def Obligations.HeaderFieldsSelectTheOperation : Prop :=
  ∀ idxw f e : Nat, f < 2 ^ idxw → e < 2 ^ idxw →
    (∀ op, op < 8 → (e <<< (idxw + 3)) ||| (f <<< 3) ||| op < 2 ^ (2 * idxw + 3)) ∧
    decodeHeader idxw ((e <<< (idxw + 3)) ||| (f <<< 3) ||| 0) = .ok (.encode f e) ∧
    decodeHeader idxw ((e <<< (idxw + 3)) ||| (f <<< 3) ||| 1) = .ok (.decode f e) ∧
    decodeHeader idxw ((e <<< (idxw + 3)) ||| (f <<< 3) ||| 2) = .ok (.encodeall f e) ∧
    decodeHeader idxw ((e <<< (idxw + 3)) ||| (f <<< 3) ||| 3) = .ok (.decodeall f e) ∧
    decodeHeader idxw ((e <<< (idxw + 3)) ||| (f <<< 3) ||| 4) = .ok (.wordat f e) ∧
    decodeHeader idxw ((e <<< (idxw + 3)) ||| (f <<< 3) ||| 5) = .ok (.firstdiv f e) ∧
    decodeHeader idxw ((e <<< (idxw + 3)) ||| (f <<< 3) ||| 6) = .ok (.reserved6 f e) ∧
    decodeHeader idxw ((e <<< (idxw + 3)) ||| (f <<< 3) ||| 7) = .ok (.reserved7 f e)

/-- Header words of 95_test_vectors.md sections 2.7 and 3, one for each family and the reserved codes. -/
def Obligations.TestVectorHeadersDecode : Prop :=
  decodeHeader 32 0x4800000048 = .ok (.encode 9 9) ∧
  decodeHeader 32 0x1 = .ok (.decode 0 0) ∧
  decodeHeader 32 0x2 = .ok (.encodeall 0 0) ∧
  decodeHeader 32 0x3 = .ok (.decodeall 0 0) ∧
  decodeHeader 32 0x14 = .ok (.wordat 2 0) ∧
  decodeHeader 32 0x280000002D = .ok (.firstdiv 5 5) ∧
  decodeHeader 32 0x7FFFFFFF80000003D = .ok (.firstdiv 7 4294967295) ∧
  decodeHeader 32 0x6 = .ok (.reserved6 0 0) ∧
  decodeHeader 32 0x7 = .ok (.reserved7 0 0)

/-- 30_encoding.md rule R63: a host's negative index is a value of at least `2^(IDXW-1)`, above every total word count. -/
def Obligations.NegativeIndexIsAboveEveryTotal : Prop :=
  ∀ idxw n : Nat, 5 ≤ idxw → 1 ≤ n → n ≤ 2 ^ (idxw - 1) →
    hostIndex idxw (-(n : Int)) = some (2 ^ idxw - n) ∧ 2 ^ (idxw - 1) ≤ 2 ^ idxw - n ∧
    ∀ (w : Nat) (x : ByteString), w ∈ [1, 2, 4, 8] → Spec.byteStringTyped idxw x →
      totalWords w x < 2 ^ idxw - n

/-- 30_encoding.md rule R78: with `OK` the response word is fixed by the payload's value, which is the word (`WORDAT`), the
index (`FIRSTDIV`), the length (`ENCODE`, `DECODE`) or the count of elements (`ENCODEALL`, `DECODEALL`); with any other
status only its `status` field is fixed (93_implementation_defined.md U6; log entry 12). -/
def Obligations.ResponseWordLayout : Prop :=
  (∀ (idxw word : Nat) (p : Payload), p.value < 2 ^ idxw →
    (Response.carriedBy idxw { status := .ok, payload := some p } word = true ↔ word = p.value <<< 2)) ∧
  (∀ p : Payload, p.value =
    match p with
    | .words ws => ws.length
    | .bytes x => x.length
    | .wordSeqs l => l.length
    | .byteStrings l => l.length
    | .word c => c.toNat
    | .index n => n) ∧
  (∀ (idxw word : Nat) (e : Status),
    (Response.carriedBy idxw { status := e, payload := none } word = true ↔
      word < 2 ^ (idxw + 2) ∧ word % 4 = e.code)) ∧
  Status.ok.code = 0 ∧ Status.errConfig.code = 1 ∧ Status.errIndex.code = 2 ∧ Status.errOp.code = 3

/-- 30_encoding.md rule R78, 00_scope.md rule R8: lengths, counts and indexes of payloads fit the `value` field at every
`IDXW`, and so does a word wherever `IDXW` is at least `WIDTH`. What is left is a word of `WIDTH = 8` under `IDXW` 5, 6 or 7,
for which the rule states no value (log entry 12). -/
def Obligations.ResponseValueFitsItsField : Prop :=
  ∀ (s : State) (p : Payload), s.inv = true → (s.width.toNat ≤ s.idxw ∨ ∀ c, p ≠ .word c) →
    s.response = some { status := .ok, payload := some p } → p.value < 2 ^ s.idxw

/-- 30_encoding.md rules R80, R82: a line assembles to the header of its operation with its operands and nothing else. -/
def Obligations.AssembledLineIsItsOperation : Prop :=
  ∀ (idxw : Nat) (l : AsmLine) (c : Command), l.assemble idxw = some c →
    match l with
    | .encode s => decodeHeader idxw c.hdr = .ok (.encode 0 0) ∧ c = { Command.empty with hdr := c.hdr, a := s }
    | .decode ws => decodeHeader idxw c.hdr = .ok (.decode 0 0) ∧ c = { Command.empty with hdr := c.hdr, ws := ws }
    | .encodeall x =>
      decodeHeader idxw c.hdr = .ok (.encodeall 0 0) ∧ c = { Command.empty with hdr := c.hdr, sa := x }
    | .decodeall x =>
      decodeHeader idxw c.hdr = .ok (.decodeall 0 0) ∧ c = { Command.empty with hdr := c.hdr, sw := x }
    | .wordat s i =>
      ∃ n, hostIndex idxw i = some n ∧ decodeHeader idxw c.hdr = .ok (.wordat n 0) ∧
        c = { Command.empty with hdr := c.hdr, a := s }
    | .firstdiv a b f e =>
      ∃ m n, hostIndex idxw f = some m ∧ hostIndex idxw e = some n ∧
        decodeHeader idxw c.hdr = .ok (.firstdiv m n) ∧ c = { Command.empty with hdr := c.hdr, a := a, b := b }

/-! ### Bit arithmetic -/

/-- 00_scope.md rule R7: the two constants of each valid width. -/
def Obligations.WidthConstants : Prop :=
  (∀ w ∈ [1, 2, 4, 8], wpb w = 8 / w ∧ w * wpb w = 8 ∧ (mask w).toNat = 2 ^ w - 1) ∧
    wpb 1 = 8 ∧ wpb 2 = 4 ∧ wpb 4 = 2 ∧ wpb 8 = 1 ∧
    mask 1 = 0x01#8 ∧ mask 2 = 0x03#8 ∧ mask 4 = 0x0F#8 ∧ mask 8 = 0xFF#8

/-- 20_memory.md rule R43, with rule R46: the derived quantities, their second forms, and where the word lies. -/
def Obligations.BitAddressOfAWord : Prop :=
  ∀ (w i : Nat), w ∈ [1, 2, 4, 8] →
    bitOffset w i = i * w ∧
    byteIndex w i = i * w / 8 ∧ byteIndex w i = i / (8 / w) ∧
    bitWithinByte w i = i * w % 8 ∧ bitWithinByte w i = i % (8 / w) * w ∧
    w ∣ bitWithinByte w i ∧ bitWithinByte w i ≤ 8 - w ∧
    shiftOf w i + w + bitWithinByte w i = 8 ∧
    ∀ (x : ByteString) (byte : Byte), x[byteIndex w i]? = some byte →
      ∃ c, wordOf w x i = some c ∧ c.toNat < 2 ^ w ∧
        ∀ j, j < w → c.getLsbD j = byte.getLsbD (shiftOf w i + j)

/-- 20_memory.md rules R40, R44, 30_encoding.md rules R60, R62: bit `j` of word `i`, counted from its most significant
end, is bit offset `i*WIDTH + j` of the byte string, and bit offset `n` is bit number `7 - (n mod 8)` of byte `n div 8`. -/
def Obligations.WordsAreTheBitstreamMostSignificantFirst : Prop :=
  ∀ (w : Nat) (x : ByteString) (i j : Nat), w ∈ [1, 2, 4, 8] → i < x.length * (8 / w) → j < w →
    ∃ c byte, wordOf w x i = some c ∧ x[(i * w + j) / 8]? = some byte ∧
      c.getLsbD (w - 1 - j) = byte.getLsbD (7 - (i * w + j) % 8)

/-! ### The Codec -/

/-- 40_codec.md rule R91: the result of `ENCODE`, its length and each of its words. -/
def Obligations.EncodeAnswersTheWordSequence : Prop :=
  ∀ (s : State) (f e : Nat), Spec.validA s →
    ∃ out, exec (.encode f e) s = Spec.ok s (.words out) ∧
      out.length = s.cmd.a.length * (8 / s.width.toNat) ∧
      ∀ j, j < out.length →
        out[j]? = some ((s.cmd.a.getD (j / (8 / s.width.toNat)) 0#8 >>>
          (8 - s.width.toNat - j % (8 / s.width.toNat) * s.width.toNat)) &&& Spec.maskByte s.width.toNat)

/-- 40_codec.md rules R94, R95: the result of `DECODE`, its length `ceil(N*WIDTH/8)`, and each group of each byte: the
word of that index, or zero where there is none. -/
def Obligations.DecodeAnswersTheByteString : Prop :=
  ∀ (s : State) (f e : Nat), s.inv = true → s.cfgOk = true → Spec.wordSeqTyped s.idxw s.width.toNat s.cmd.ws →
    ∃ out, exec (.decode f e) s = Spec.ok s (.bytes out) ∧
      out.length = (s.cmd.ws.length * s.width.toNat + 7) / 8 ∧
      ∀ m k, m < out.length → k < 8 / s.width.toNat →
        (out.getD m 0#8 >>> (8 - s.width.toNat - k * s.width.toNat)) &&& Spec.maskByte s.width.toNat =
          s.cmd.ws.getD (m * (8 / s.width.toNat) + k) 0#8

/-- 40_codec.md rules R98, R100, 60_exceptions.md rule R152: `ENCODEALL` is `ENCODE` of each element, same count and
order, with one status. -/
def Obligations.EncodeallIsEncodeOfEachElement : Prop :=
  ∀ (s : State) (f e : Nat), s.inv = true → s.cfgOk = true →
    Spec.operandsTyped s.idxw s.width.toNat (.encodeall f e) s.cmd →
    ∃ out : List WordSeq, exec (.encodeall f e) s = Spec.ok s (.wordSeqs out) ∧ out.length = s.cmd.sa.length ∧
      ∀ (k : Nat) (x : ByteString), s.cmd.sa[k]? = some x →
        ∃ ws : WordSeq, out[k]? = some ws ∧
          exec (.encode f e) (Spec.withA s x) = Spec.ok (Spec.withA s x) (.words ws)

/-- 40_codec.md rules R99, R100, 60_exceptions.md rule R152: `DECODEALL` is `DECODE` of each element, each padded on its
own, same count and order, with one status. -/
def Obligations.DecodeallIsDecodeOfEachElement : Prop :=
  ∀ (s : State) (f e : Nat), s.inv = true → s.cfgOk = true →
    Spec.operandsTyped s.idxw s.width.toNat (.decodeall f e) s.cmd →
    ∃ out : List ByteString, exec (.decodeall f e) s = Spec.ok s (.byteStrings out) ∧ out.length = s.cmd.sw.length ∧
      ∀ (k : Nat) (ws : WordSeq), s.cmd.sw[k]? = some ws →
        ∃ x : ByteString, out[k]? = some x ∧
          exec (.decode f e) (Spec.withWS s ws) = Spec.ok (Spec.withWS s ws) (.bytes x)

/-- 40_codec.md rule R92: `ENCODE` distributes over concatenation and its length is the total word count. -/
def Obligations.EncodeDistributesOverConcatenation : Prop :=
  ∀ (s : State) (x y : ByteString) (f e : Nat), s.inv = true → s.cfgOk = true →
    Spec.byteStringTyped s.idxw (x ++ y) →
    ∃ u v, exec (.encode f e) (Spec.withA s x) = Spec.ok (Spec.withA s x) (.words u) ∧
      exec (.encode f e) (Spec.withA s y) = Spec.ok (Spec.withA s y) (.words v) ∧
      exec (.encode f e) (Spec.withA s (x ++ y)) = Spec.ok (Spec.withA s (x ++ y)) (.words (u ++ v)) ∧
      u.length = totalWords s.width.toNat x ∧ v.length = totalWords s.width.toNat y

/-- 40_codec.md rule R96, the round-trip law: `DECODE` of what `ENCODE` answered is the byte string, on any valid instance
of the same width. -/
def Obligations.DecodeOfEncodeIsTheByteString : Prop :=
  ∀ (s : State) (f e : Nat), Spec.validA s →
    ∃ ws, exec (.encode f e) s = Spec.ok s (.words ws) ∧
      ∀ (t : State) (g h : Nat), t.inv = true → t.cfgOk = true → t.width = s.width → t.idxw = s.idxw →
        t.cmd.ws = ws → exec (.decode g h) t = Spec.ok t (.bytes s.cmd.a)

/-- 40_codec.md rule R97, the converse law exactly: `ENCODE` of what `DECODE` answered is the word sequence with
`(WPB - r) mod WPB` zero words appended, `r = N mod WPB`. -/
def Obligations.EncodeOfDecodeAppendsZeroWords : Prop :=
  ∀ (s : State) (f e : Nat), s.inv = true → s.cfgOk = true → Spec.wordSeqTyped s.idxw s.width.toNat s.cmd.ws →
    ∃ x, exec (.decode f e) s = Spec.ok s (.bytes x) ∧
      ∀ (t : State) (g h : Nat), t.inv = true → t.cfgOk = true → t.width = s.width → t.idxw = s.idxw →
        t.cmd.a = x →
        exec (.encode g h) t = Spec.ok t (.words (s.cmd.ws ++
          List.replicate ((8 / s.width.toNat - s.cmd.ws.length % (8 / s.width.toNat)) % (8 / s.width.toNat)) 0#8))

/-- 20_memory.md rule R45: the word sequences of one byte string at widths `w` and `2w` nest, at width 8 the word sequence
is the byte string, and the example byte `0xA7`. -/
def Obligations.ViewsOfDifferentWidthNest : Prop :=
  (∀ (s t : State) (f e : Nat), Spec.validA s → Spec.validA t → t.cmd.a = s.cmd.a →
    t.width.toNat = 2 * s.width.toNat →
    ∃ u v, exec (.encode f e) s = Spec.ok s (.words u) ∧ exec (.encode f e) t = Spec.ok t (.words v) ∧
      ∀ j, j < s.cmd.a.length * (8 / t.width.toNat) →
        v.getD j 0#8 = (u.getD (2 * j) 0#8 <<< s.width.toNat) ||| u.getD (2 * j + 1) 0#8) ∧
  (∀ (s : State) (f e : Nat), Spec.validA s → s.width = 8#4 →
    exec (.encode f e) s = Spec.ok s (.words s.cmd.a)) ∧
  encodeBytes 1 [0xA7#8] = [1, 0, 1, 0, 0, 1, 1, 1] ∧ encodeBytes 2 [0xA7#8] = [2, 2, 1, 3] ∧
  encodeBytes 4 [0xA7#8] = [10, 7] ∧ encodeBytes 8 [0xA7#8] = [167]

/-! ### The Accessor -/

/-- 41_accessor.md rules R110, R111: an index in range answers the word. -/
def Obligations.WordatAnswersTheWord : Prop :=
  ∀ (s : State) (i e : Nat), Spec.validA s → i < s.cmd.a.length * (8 / s.width.toNat) →
    exec (.wordat i e) s =
      Spec.ok s (.word ((s.cmd.a.getD (i * s.width.toNat / 8) 0#8 >>>
        (8 - s.width.toNat - i * s.width.toNat % 8)) &&& BitVec.ofNat 8 (2 ^ s.width.toNat - 1)))

/-- 41_accessor.md rule R112: an index at or beyond the total word count fails, whatever the bytes, the empty byte string
for every index, and a host's negative index with it; it is never clamped. -/
def Obligations.WordatFailsOutOfRange : Prop :=
  (∀ (s : State) (i e : Nat), Spec.validA s → s.cmd.a.length * (8 / s.width.toNat) ≤ i →
    exec (.wordat i e) s = Spec.err s .errIndex) ∧
  (∀ (s : State) (i e : Nat), Spec.validA s → s.cmd.a = [] → exec (.wordat i e) s = Spec.err s .errIndex) ∧
  (∀ (s : State) (n i e : Nat), Spec.validA s → 1 ≤ n → hostIndex s.idxw (-(n : Int)) = some i →
    exec (.wordat i e) s = Spec.err s .errIndex)

/-- 41_accessor.md rule R113: `WORDAT(s, i) = ENCODE(s)[i]` for every `i < totalWords(s)`. -/
def Obligations.WordatIsEncodeAtTheIndex : Prop :=
  ∀ (s : State) (f e : Nat), Spec.validA s →
    ∃ ws, exec (.encode f e) s = Spec.ok s (.words ws) ∧
      ∀ i g, i < totalWords s.width.toNat s.cmd.a →
        ∃ c, ws[i]? = some c ∧ exec (.wordat i g) s = Spec.ok s (.word c)

/-- 20_memory.md rule R47: `WORDAT` needs exactly one byte of its operand, the one at `byteIndex(i)`, beside the length;
no byte at all when the index is out of range (41_accessor.md rule R112). -/
def Obligations.WordatReadsOneByte : Prop :=
  ∀ (s t : State) (i e : Nat), s.inv = true → t.inv = true →
    t.width = s.width → t.idxw = s.idxw → t.cfgOk = s.cfgOk → t.cmd.a.length = s.cmd.a.length →
    (i < totalWords s.width.toNat s.cmd.a →
      t.cmd.a[i * s.width.toNat / 8]? = s.cmd.a[i * s.width.toNat / 8]?) →
    Spec.sameAnswer (exec (.wordat i e) s) (exec (.wordat i e) t)

/-! ### The Comparator -/

/-- 42_comparator.md rule R120, with R122, R123: every case of `from` and `end`. -/
def Obligations.FirstdivAnswersTheScan : Prop :=
  ∀ (s : State) (f e : Nat), Spec.validAB s →
    ∃ r, exec (.firstdiv f e) s = Spec.ok s (.index r) ∧
      (f = e → r = e) ∧
      (f ≠ e → min e (Spec.minTotal s) ≤ f → r = min e (Spec.minTotal s)) ∧
      (f ≠ e → f < min e (Spec.minTotal s) →
        f ≤ r ∧ r ≤ min e (Spec.minTotal s) ∧ (∀ i, f ≤ i → i < r → Spec.agreeAt s i) ∧
        (r < min e (Spec.minTotal s) → ¬ Spec.agreeAt s r))

/-- 42_comparator.md rule R121: in range, the smallest index of `[from, end)` at which the words differ, else `end`. -/
def Obligations.FirstdivInRangeIsTheSmallestDifference : Prop :=
  ∀ (s : State) (f e : Nat), Spec.validAB s → f ≤ e → e ≤ Spec.minTotal s →
    (∀ r, f ≤ r → r < e → ¬ Spec.agreeAt s r → (∀ i, f ≤ i → i < r → Spec.agreeAt s i) →
      exec (.firstdiv f e) s = Spec.ok s (.index r)) ∧
    ((∀ i, f ≤ i → i < e → Spec.agreeAt s i) → exec (.firstdiv f e) s = Spec.ok s (.index e))

/-- 42_comparator.md rule R125: the degenerate range answers `k` for any `k` and any operands, on the operands as given. -/
def Obligations.FirstdivDegenerateRange : Prop :=
  ∀ (s : State) (k : Nat), Spec.validAB s → exec (.firstdiv k k) s = Spec.ok s (.index k)

/-- 42_comparator.md rule R126: `from` at or beyond the effective end, with `from != end`, answers the effective end; every
`from > end` and every `from` at or beyond both data with a larger `end` is such a case, and so is a host's negative
`from`. -/
def Obligations.FirstdivFromBeyondTheEnd : Prop :=
  (∀ (s : State) (f e : Nat), Spec.validAB s → f ≠ e → min e (Spec.minTotal s) ≤ f →
    exec (.firstdiv f e) s = Spec.ok s (.index (min e (Spec.minTotal s)))) ∧
  (∀ (s : State) (f e : Nat), Spec.validAB s → Spec.minTotal s ≤ f → f < e →
    exec (.firstdiv f e) s = Spec.ok s (.index (Spec.minTotal s))) ∧
  (∀ (s : State) (f e : Nat), Spec.validAB s → e < f →
    exec (.firstdiv f e) s = Spec.ok s (.index (min e (Spec.minTotal s)))) ∧
  (∀ (s : State) (n f e : Nat), Spec.validAB s → 1 ≤ n → hostIndex s.idxw (-(n : Int)) = some f → f ≠ e →
    exec (.firstdiv f e) s = Spec.ok s (.index (min e (Spec.minTotal s))))

/-- 42_comparator.md rule R124 (`NEG_END_POLICY = CLAMP`): a host's negative `end` is above both totals and behaves as
the lesser total; the regression case answers 6. -/
def Obligations.NegativeEndIsClampedToTheData : Prop :=
  (∀ (s : State) (n f e : Nat), Spec.validAB s → 1 ≤ n → hostIndex s.idxw (-(n : Int)) = some e → f ≠ e →
    2 ^ (s.idxw - 1) ≤ e ∧ Spec.minTotal s < e ∧
    exec (.firstdiv f e) s = exec (.firstdiv f (Spec.minTotal s)) s) ∧
  (∀ (s : State) (e : Nat), Spec.validAB s → s.width = 4#4 → s.cmd.a = [0x61, 0x61, 0x61] →
    s.cmd.b = [0x61, 0x61, 0x61] → hostIndex s.idxw (-1) = some e →
    exec (.firstdiv 0 e) s = Spec.ok s (.index 6))

/-- 42_comparator.md rule R129: what always holds of the result, (a) to (d). -/
def Obligations.FirstdivResultAlways : Prop :=
  ∀ (s : State) (f e : Nat), Spec.validAB s →
    ∃ r, exec (.firstdiv f e) s = Spec.ok s (.index r) ∧
      (∀ i, f ≤ i → i < r → i < Spec.minTotal s ∧ Spec.agreeAt s i) ∧
      ((f ≤ r ∧ r < min e (Spec.minTotal s) ∧ min e (Spec.minTotal s) ≤ e ∧ ¬ Spec.agreeAt s r) ∨
        (f = e ∧ r = e) ∨ (r = min e (Spec.minTotal s) ∧ min e (Spec.minTotal s) ≤ e)) ∧
      r ≤ e ∧ (f = e ∨ r ≤ Spec.minTotal s)

/-- 42_comparator.md rule R130: the source's property on `from <= end`, with exactly where its first and third clauses
fail. -/
def Obligations.FirstdivMonotonicityAndItsDomain : Prop :=
  ∀ (s : State) (f e : Nat), Spec.validAB s → f ≤ e →
    ∃ r, exec (.firstdiv f e) s = Spec.ok s (.index r) ∧
      (∀ i, f ≤ i → i < r → Spec.agreeAt s i) ∧
      (¬ (f ≤ r ∧ r ≤ e) ↔ Spec.minTotal s < f ∧ f < e) ∧
      (e ≤ Spec.minTotal s → f ≤ r ∧ r ≤ e ∧ (r < e → ¬ Spec.agreeAt s r)) ∧
      (r < e ∧ ¬ (r < Spec.minTotal s ∧ ¬ Spec.agreeAt s r) ↔
        f ≠ e ∧ Spec.minTotal s < e ∧ ∀ i, f ≤ i → i < Spec.minTotal s → Spec.agreeAt s i)

/-- 42_comparator.md rule R127: the fast path gives the result of rule R120 for every input. Which scan the fast path is,
`firstDivFast`, is the model's own reading of that rule (log entry 18, DEDUCED); the machine does not use it. -/
def Obligations.FastPathIsInvisible : Prop :=
  ∀ (s : State) (f e : Nat), Spec.validAB s →
    ∃ r, firstDivFast s.width.toNat s.cmd.a s.cmd.b f e = some r ∧
      exec (.firstdiv f e) s = Spec.ok s (.index r)

/-! ### Errors, frames, independence -/

/-- 10_state.md rule R26, 60_exceptions.md rule R141: on an invalid instance every command, of whatever operation and with
whatever operands, completes with `ERR_CONFIG`. -/
def Obligations.InvalidInstanceAnswersErrConfig : Prop :=
  ∀ (i : Instr) (s : State), s.cfgOk = false → exec i s = Spec.err s .errConfig

/-- 60_exceptions.md rule R143, 30_encoding.md rule R74: a reserved operation code on a valid instance answers `ERR_OP`. -/
def Obligations.ReservedCodesAnswerErrOp : Prop :=
  ∀ (s : State) (f e : Nat), s.cfgOk = true →
    exec (.reserved6 f e) s = Spec.err s .errOp ∧ exec (.reserved7 f e) s = Spec.err s .errOp

/-- 60_exceptions.md rules R151, R150: every command with operands of the types completes, and in which status. -/
def Obligations.StatusOfEachCommand : Prop :=
  ∀ (i : Instr) (s : State), s.inv = true →
    (s.cfgOk = true → Spec.operandsTyped s.idxw s.width.toNat i s.cmd) →
    ∃ t r, exec i s = .next t ∧ t.response = some r ∧
      (s.cfgOk = false → r.status = .errConfig) ∧
      (s.cfgOk = true → r.status =
        match i with
        | .encode _ _ => .ok
        | .decode _ _ => .ok
        | .encodeall _ _ => .ok
        | .decodeall _ _ => .ok
        | .wordat n _ => if n < totalWords s.width.toNat s.cmd.a then .ok else .errIndex
        | .firstdiv _ _ => .ok
        | .reserved6 _ _ => .errOp
        | .reserved7 _ _ => .errOp)

/-- The frame of all eight: a command that completes leaves the configuration, the strap, the reset input, `IDXW` and the
host unchanged, clears `BUSY`, discards the command and hands back a response, with a payload exactly when its status is
`OK` (10_state.md rules R20, R21, R32, R33; 60_exceptions.md rule R146). There is no memory and no register. -/
def Obligations.CompletionChangesOnlyTheResponse : Prop :=
  ∀ (i : Instr) (s t : State), exec i s = .next t →
    ∃ r, t = { s with busy := false, cmd := Command.empty, response := some r } ∧
      (r.payload.isSome = true ↔ r.status = .ok)

/-- 20_memory.md rule R56, in two clauses. `WORDAT` and `FIRSTDIV` read a cell at a computed index, and that such a read
outside its operand is a fault is the model's choice (log entry 11, DESIGN CHOICE): from a state with the invariant neither
meets it (the other instructions raise no fault in any state). The Codec runs over its operand whole, with no such fault to
raise: its result is that of 40_codec.md rules R91, R94, R98, R99 over any memory that holds the operand at cells
`0 .. len-1`, whatever lies beyond them. -/
def Obligations.NoReadOutsideAnOperand : Prop :=
  (∀ (i : Instr) (s : State) (q : Fault), s.inv = true → exec i s ≠ .fault q) ∧
  (∀ (s : State) (f e : Nat), s.inv = true → s.cfgOk = true →
    (∀ cells, Spec.byteStringTyped s.idxw s.cmd.a → Spec.holds cells s.cmd.a →
      exec (.encode f e) s = Spec.ok s (.words (Spec.encodeCells s.width.toNat s.cmd.a.length cells))) ∧
    (∀ cells, Spec.wordSeqTyped s.idxw s.width.toNat s.cmd.ws → Spec.holds cells s.cmd.ws →
      exec (.decode f e) s = Spec.ok s (.bytes (Spec.decodeCells s.width.toNat s.cmd.ws.length cells))) ∧
    (∀ cells : Nat → Nat → Byte, Spec.operandsTyped s.idxw s.width.toNat (.encodeall f e) s.cmd →
      (∀ k x, s.cmd.sa[k]? = some x → Spec.holds (cells k) x) →
      exec (.encodeall f e) s = Spec.ok s (.wordSeqs ((List.range s.cmd.sa.length).map fun k =>
        Spec.encodeCells s.width.toNat (s.cmd.sa.getD k []).length (cells k)))) ∧
    (∀ cells : Nat → Nat → Byte, Spec.operandsTyped s.idxw s.width.toNat (.decodeall f e) s.cmd →
      (∀ k ws, s.cmd.sw[k]? = some ws → Spec.holds (cells k) ws) →
      exec (.decodeall f e) s = Spec.ok s (.byteStrings ((List.range s.cmd.sw.length).map fun k =>
        Spec.decodeCells s.width.toNat (s.cmd.sw.getD k []).length (cells k)))))

/-- 00_scope.md rule R9, 10_state.md rule R30 (93_implementation_defined.md U3, U5): a command is refused exactly when, on
a valid instance, an operand it takes is outside the operand types. The rules say that a model refuses such an operand; that
it does so only on a valid instance (an invalid one answers `ERR_CONFIG`: 10_state.md R26, 60_exceptions.md R151), only for an
operand the operation takes (30_encoding.md R73), and before `WORDAT`'s bound and `FIRSTDIV`'s degenerate range are looked
at, is the model's reading (log entry 7 for a word cell, log entry 8 for a limit, DEDUCED). -/
def Obligations.RefusedExactlyOutsideTheOperandTypes : Prop :=
  ∀ (i : Instr) (s : State),
    (∃ q, exec i s = .refused q) ↔ s.cfgOk = true ∧ ¬ Spec.operandsTyped s.idxw s.width.toNat i s.cmd

/-- 30_encoding.md rule R73: fields and attachments an operation does not use give the same response; also 10_state.md
rule R21: the response depends on the command's operands and the instance's width alone. -/
def Obligations.UnusedFieldsAndAttachmentsAreIgnored : Prop :=
  ∀ (i j : Instr) (s t : State), s.width = t.width → s.idxw = t.idxw → s.cfgOk = t.cfgOk →
    Spec.sameUsed i j s.cmd t.cmd → Spec.sameAnswer (exec i s) (exec j t)
end

