-- ==== Sys2Proof/Laws/Operands.lean ====
section
/-! SUPPORT. The facts about a valid width and about operand checks that every proof over the operations cites. -/

namespace Sys2Proof.Machine

/-- A legal width is one of four numbers. -/
theorem legalWidth_iff (v : BitVec 4) : legalWidth v = true ↔ v.toNat ∈ [1, 2, 4, 8] := by
  revert v; decide

/-- The same, as a case split. -/
theorem legalWidth_cases {v : BitVec 4} (h : legalWidth v = true) :
    v.toNat = 1 ∨ v.toNat = 2 ∨ v.toNat = 4 ∨ v.toNat = 8 := by
  simpa using (legalWidth_iff v).1 h

/-- A byte string passes its check exactly when it is within its limit. -/
theorem checkBytes_eq_none_iff (idxw : Nat) (x : ByteString) :
    checkBytes idxw x = none ↔ x.length ≤ lmax idxw := by
  unfold checkBytes; split <;> simp_all

/-- A word sequence passes its check exactly when it is within its limit and its cells are words. -/
theorem checkWords_eq_none_iff (idxw w : Nat) (ws : WordSeq) :
    checkWords idxw w ws = none ↔ ws.length ≤ wpb w * lmax idxw ∧ ∀ c ∈ ws, c.toNat < 2 ^ w := by
  unfold checkWords
  by_cases h : ws.length ≤ wpb w * lmax idxw
  · by_cases h' : ws.all (fun c => decide (c.toNat < 2 ^ w)) = true
    · simp [h]
    · simp [h]
  · simp [h]

/-- A batch passes its check exactly when it is within its limit and every element passes. -/
theorem checkBatch_eq_none_iff {α : Type} (idxw : Nat) (check : α → Option Refusal) (l : List α) :
    checkBatch idxw check l = none ↔ l.length ≤ kmax idxw ∧ ∀ x ∈ l, check x = none := by
  unfold checkBatch
  by_cases h : l.length ≤ kmax idxw
  · simp [h, List.findSome?_eq_none_iff]
  · simp [h]

/-- Reading a cell inside an operand gives the cell. -/
theorem memRead_of_lt {x : List Byte} {k : Nat} (h : k < x.length) : memRead x k = some (x.getD k 0#8) := by
  simp [memRead, h]

/-- Reading a cell outside an operand gives none. -/
theorem memRead_of_ge {x : List Byte} {k : Nat} (h : x.length ≤ k) : memRead x k = none := by
  simp [memRead, h]

/-- The byte of a word index below the total lies inside the byte string. -/
theorem byteIndex_lt {w i : Nat} {x : ByteString} (hw : w = 1 ∨ w = 2 ∨ w = 4 ∨ w = 8)
    (hi : i < totalWords w x) : byteIndex w i < x.length := by
  unfold totalWords wpb at hi
  unfold byteIndex bitOffset
  rcases hw with rfl | rfl | rfl | rfl <;> simp at hi <;> omega

/-- The word function below the total word count. -/
theorem wordOf_of_lt {w i : Nat} {x : ByteString} (hw : w = 1 ∨ w = 2 ∨ w = 4 ∨ w = 8)
    (hi : i < totalWords w x) :
    wordOf w x i = some ((x.getD (byteIndex w i) 0#8 >>> shiftOf w i) &&& mask w) := by
  simp [wordOf, memRead_of_lt (byteIndex_lt hw hi)]

end Sys2Proof.Machine
end

