-- ==== Sys2Proof/Laws/Codec.lean ====
section
/-! SUPPORT. The lists of the Codec, element by element, and how a byte is the sum of its groups. -/

namespace Sys2Proof.Machine

/-- A valid width divides a byte into at least one group. -/
theorem wpb_pos {w : Nat} (hw : w = 1 ∨ w = 2 ∨ w = 4 ∨ w = 8) : 0 < wpb w := by
  rcases hw with rfl | rfl | rfl | rfl <;> decide

@[simp] theorem byteGroups_length (w : Nat) (byte : Byte) : (byteGroups w byte).length = wpb w := by
  simp [byteGroups]

@[simp] theorem encodeBytes_nil (w : Nat) : encodeBytes w [] = [] := rfl

@[simp] theorem encodeBytes_cons (w : Nat) (x : Byte) (s : ByteString) :
    encodeBytes w (x :: s) = byteGroups w x ++ encodeBytes w s := by
  simp [encodeBytes]

/-- The length of an encoded byte string. -/
theorem encodeBytes_length (w : Nat) (s : ByteString) : (encodeBytes w s).length = s.length * wpb w := by
  induction s with
  | nil => simp
  | cons x s ih =>
    rw [encodeBytes_cons, List.length_append, byteGroups_length, ih, List.length_cons, Nat.succ_mul, Nat.add_comm]

/-- Word `j` is group `j mod WPB` of byte `j div WPB`. -/
theorem encodeBytes_getElem? {w : Nat} (hw : 0 < wpb w) (s : ByteString) {j : Nat} (hj : j < s.length * wpb w) :
    (encodeBytes w s)[j]? = some (groupOf w (s.getD (j / wpb w) 0#8) (j % wpb w)) := by
  induction s generalizing j with
  | nil => simp at hj
  | cons x s ih =>
    rw [encodeBytes_cons]
    by_cases h : j < wpb w
    · rw [List.getElem?_append_left (by simpa using h), Nat.div_eq_of_lt h, Nat.mod_eq_of_lt h]
      simp [byteGroups, h]
    · have h' : wpb w ≤ j := by omega
      rw [List.getElem?_append_right (by simpa using h'), byteGroups_length,
        ih (by rw [List.length_cons, Nat.succ_mul] at hj; omega),
        Nat.div_eq_sub_div hw h', Nat.mod_eq_sub_mod h']
      simp

/-- A list is what a memory holds at its indices. -/
theorem eq_map_range_of_cells {x : List Byte} {cells : Nat → Byte} (h : ∀ m, m < x.length → x[m]? = some (cells m)) :
    x = (List.range x.length).map cells := by
  refine List.ext_getElem? (fun m => ?_)
  by_cases hm : m < x.length
  · rw [h m hm]; simp [hm]
  · simp [hm]

/-- An encoded byte string by the indices of its bytes, from any memory that holds it. -/
theorem encodeBytes_of_cells (w : Nat) {s : ByteString} {cells : Nat → Byte}
    (h : ∀ m, m < s.length → s[m]? = some (cells m)) :
    encodeBytes w s = (List.range s.length).flatMap (fun m => byteGroups w (cells m)) := by
  conv_lhs => rw [eq_map_range_of_cells h]
  simp [encodeBytes, List.flatMap_map]

/-- A group of a byte is below `2^WIDTH`. -/
theorem groupOf_lt {w : Nat} (hw : w = 1 ∨ w = 2 ∨ w = 4 ∨ w = 8) (byte : Byte) (k : Nat) :
    (groupOf w byte k).toNat < 2 ^ w := by
  have h : (groupOf w byte k).toNat ≤ (mask w).toNat := by
    unfold groupOf; rw [BitVec.toNat_and]; exact Nat.and_le_right
  rcases hw with rfl | rfl | rfl | rfl <;>
    exact Nat.lt_of_le_of_lt h (by decide)

/-- A byte is the sum of its groups, each in its place. -/
theorem byte_of_groups {w : Nat} (hw : w = 1 ∨ w = 2 ∨ w = 4 ∨ w = 8) (byte : Byte) :
    (List.range (wpb w)).foldl (fun acc k => acc ||| (groupOf w byte k <<< groupShift w k)) 0#8 = byte := by
  revert byte
  rcases hw with rfl | rfl | rfl | rfl <;> decide +kernel

/-- Two bytes with the same groups are the same byte. -/
theorem byte_ext_groups {w : Nat} (hw : w = 1 ∨ w = 2 ∨ w = 4 ∨ w = 8) {x y : Byte}
    (h : ∀ k, k < wpb w → groupOf w x k = groupOf w y k) : x = y := by
  rw [← byte_of_groups hw x, ← byte_of_groups hw y]
  refine List.foldl_ext _ _ _ (fun acc k hk => ?_)
  rw [h k (List.mem_range.1 hk)]

@[simp] theorem decodeWords_length (w : Nat) (ws : WordSeq) :
    (decodeWords w ws).length = (ws.length * w + 7) / 8 := by
  simp [decodeWords]

/-- Byte `m` of a decoded word sequence as a sum of words in their groups, a zero word where there is none. -/
theorem decodeByte_eq_sum (w : Nat) (ws : WordSeq) (m : Nat) :
    decodeByte w ws m =
      (List.range (wpb w)).foldl (fun acc k => acc ||| (ws.getD (m * wpb w + k) 0#8 <<< groupShift w k)) 0#8 := by
  unfold decodeByte
  refine List.foldl_ext _ _ _ (fun acc k _ => ?_)
  by_cases h : m * wpb w + k < ws.length
  · rw [memRead_of_lt h]
  · rw [memRead_of_ge (by omega), List.getD_eq_default _ _ (by omega)]
    simp

/-- Byte `m` of a decoded word sequence by the indices of its words, from any memory that holds it. -/
theorem decodeByte_of_cells (w : Nat) {ws : WordSeq} {cells : Nat → Byte}
    (h : ∀ m, m < ws.length → ws[m]? = some (cells m)) (m : Nat) :
    decodeByte w ws m =
      (List.range (wpb w)).foldl (fun byte k =>
        if m * wpb w + k < ws.length then byte ||| (cells (m * wpb w + k) <<< groupShift w k) else byte) 0#8 := by
  unfold decodeByte
  refine List.foldl_ext _ _ _ (fun acc k _ => ?_)
  by_cases hk : m * wpb w + k < ws.length
  · rw [memRead, h _ hk, if_pos hk]
  · rw [memRead_of_ge (by omega), if_neg hk]

/-- A bit of a sum of shifted cells. -/
theorem foldl_or_getLsbD (c : Nat → Byte) (sh : Nat → Nat) (n i : Nat) (hi : i < 8) :
    ((List.range n).foldl (fun acc k => acc ||| (c k <<< sh k)) 0#8).getLsbD i = true ↔
      ∃ k, k < n ∧ sh k ≤ i ∧ (c k).getLsbD (i - sh k) = true := by
  induction n with
  | zero => simp
  | succ n ih =>
    rw [List.range_succ, List.foldl_append]
    simp only [List.foldl_cons, List.foldl_nil, BitVec.getLsbD_or, Bool.or_eq_true, ih, BitVec.getLsbD_shiftLeft,
      Bool.and_eq_true, decide_eq_true_eq, Bool.not_eq_true', decide_eq_false_iff_not, Nat.not_lt]
    constructor
    · rintro (⟨k, h1, h2, h3⟩ | ⟨⟨_, h2⟩, h3⟩)
      · exact ⟨k, by omega, h2, h3⟩
      · exact ⟨n, by omega, h2, h3⟩
    · rintro ⟨k, h1, h2, h3⟩
      rcases Nat.lt_succ_iff_lt_or_eq.1 h1 with h | rfl
      · exact .inl ⟨k, h, h2, h3⟩
      · exact .inr ⟨⟨hi, h2⟩, h3⟩

/-- A bit of the mask. -/
theorem mask_getLsbD {w : Nat} (hw : w = 1 ∨ w = 2 ∨ w = 4 ∨ w = 8) {j : Nat} (hj : j < 8) :
    (mask w).getLsbD j = decide (j < w) := by
  have h : ∀ j : Fin 8, ∀ w ∈ [1, 2, 4, 8], (mask w).getLsbD j = decide (j.val < w) := by decide
  exact h ⟨j, hj⟩ w (by simpa using hw)

/-- A bit of a group. -/
theorem groupOf_getLsbD {w : Nat} (hw : w = 1 ∨ w = 2 ∨ w = 4 ∨ w = 8) (x : Byte) (k : Nat) {j : Nat} (hj : j < 8) :
    (groupOf w x k).getLsbD j = (x.getLsbD (groupShift w k + j) && decide (j < w)) := by
  simp [groupOf, mask_getLsbD hw hj]

/-- A cell that holds a word has no bit at or above its width. -/
theorem cell_getLsbD {w : Nat} {c : WordCell} (hc : c.toNat < 2 ^ w) {j : Nat} (hj : w ≤ j) : c.getLsbD j = false :=
  Nat.testBit_lt_two_pow (Nat.lt_of_lt_of_le hc (Nat.pow_le_pow_right (by decide) hj))

/-- The groups of a sum of words are the words. -/
theorem groupOf_sum {w : Nat} (hw : w = 1 ∨ w = 2 ∨ w = 4 ∨ w = 8) (c : Nat → WordCell)
    (hc : ∀ k, k < wpb w → (c k).toNat < 2 ^ w) {k : Nat} (hk : k < wpb w) :
    groupOf w ((List.range (wpb w)).foldl (fun acc k => acc ||| (c k <<< groupShift w k)) 0#8) k = c k := by
  refine BitVec.eq_of_getLsbD_eq (fun j hj => ?_)
  rw [groupOf_getLsbD hw _ _ hj]
  by_cases hjw : j < w
  · have hlt : groupShift w k + j < 8 := by
      unfold groupShift wpb at *; rcases hw with rfl | rfl | rfl | rfl <;> omega
    rw [Bool.eq_iff_iff]
    simp only [hjw, decide_true, Bool.and_true]
    rw [foldl_or_getLsbD _ _ _ _ hlt]
    constructor
    · rintro ⟨k', h1, h2, h3⟩
      have hj' : groupShift w k + j - groupShift w k' < w := by
        by_contra hcon
        rw [cell_getLsbD (hc k' h1) (by omega)] at h3
        cases h3
      have : k' = k := by
        unfold groupShift wpb at *; rcases hw with rfl | rfl | rfl | rfl <;> omega
      subst this
      simpa using h3
    · exact fun h => ⟨k, hk, by omega, by simpa using h⟩
  · rw [cell_getLsbD (hc k hk) (by omega)]
    simp [hjw]

/-- Byte `m` of a decoded word sequence. -/
theorem decodeWords_getD {w m : Nat} {ws : WordSeq} (hm : m < (decodeWords w ws).length) :
    (decodeWords w ws).getD m 0#8 = decodeByte w ws m := by
  rw [decodeWords_length] at hm
  simp [decodeWords, hm]

/-- The groups of a decoded byte are the words of its place, zero where there is none. -/
theorem groupOf_decodeByte {w m k : Nat} {ws : WordSeq} (hw : w = 1 ∨ w = 2 ∨ w = 4 ∨ w = 8)
    (hc : ∀ c ∈ ws, c.toNat < 2 ^ w) (hk : k < wpb w) :
    groupOf w (decodeByte w ws m) k = ws.getD (m * wpb w + k) 0#8 := by
  rw [decodeByte_eq_sum, groupOf_sum hw (fun k => ws.getD (m * wpb w + k) 0#8) _ hk]
  intro k _
  show (ws.getD _ _).toNat < _
  by_cases h : m * wpb w + k < ws.length
  · rw [List.getD_eq_getElem _ _ h]; exact hc _ (List.getElem_mem _)
  · rw [List.getD_eq_default _ _ (by omega)]; exact Nat.two_pow_pos _

end Sys2Proof.Machine
end

