-- ==== Sys2Proof/Laws/State.lean ====
section
/-! SUPPORT. What each field is after each update of the state: one lemma per field per update, true by rfl. -/

namespace Sys2Proof.Machine

@[simp] theorem State.complete_idxw (s : State) (r : Response) : (s.complete r).idxw = s.idxw := rfl

@[simp] theorem State.complete_strap (s : State) (r : Response) : (s.complete r).strap = s.strap := rfl

@[simp] theorem State.complete_inReset (s : State) (r : Response) : (s.complete r).inReset = s.inReset := rfl

@[simp] theorem State.complete_width (s : State) (r : Response) : (s.complete r).width = s.width := rfl

@[simp] theorem State.complete_cfgOk (s : State) (r : Response) : (s.complete r).cfgOk = s.cfgOk := rfl

@[simp] theorem State.complete_busy (s : State) (r : Response) : (s.complete r).busy = false := rfl

@[simp] theorem State.complete_cmd (s : State) (r : Response) : (s.complete r).cmd = Command.empty := rfl

@[simp] theorem State.complete_response (s : State) (r : Response) : (s.complete r).response = some r := rfl

@[simp] theorem State.complete_host (s : State) (r : Response) : (s.complete r).host = s.host := rfl

@[simp] theorem State.accept_idxw (s : State) (c : Command) : (s.accept c).idxw = s.idxw := rfl

@[simp] theorem State.accept_strap (s : State) (c : Command) : (s.accept c).strap = s.strap := rfl

@[simp] theorem State.accept_inReset (s : State) (c : Command) : (s.accept c).inReset = s.inReset := rfl

@[simp] theorem State.accept_width (s : State) (c : Command) : (s.accept c).width = s.width := rfl

@[simp] theorem State.accept_cfgOk (s : State) (c : Command) : (s.accept c).cfgOk = s.cfgOk := rfl

@[simp] theorem State.accept_busy (s : State) (c : Command) : (s.accept c).busy = true := rfl

@[simp] theorem State.accept_cmd (s : State) (c : Command) : (s.accept c).cmd = c := rfl

@[simp] theorem State.accept_response (s : State) (c : Command) : (s.accept c).response = none := rfl

@[simp] theorem State.accept_host (s : State) (c : Command) : (s.accept c).host = s.host := rfl

@[simp] theorem State.assertReset_idxw (s : State) : (s.assertReset).idxw = s.idxw := rfl

@[simp] theorem State.assertReset_strap (s : State) : (s.assertReset).strap = s.strap := rfl

@[simp] theorem State.assertReset_inReset (s : State) : (s.assertReset).inReset = true := rfl

@[simp] theorem State.assertReset_width (s : State) : (s.assertReset).width = s.width := rfl

@[simp] theorem State.assertReset_cfgOk (s : State) : (s.assertReset).cfgOk = s.cfgOk := rfl

@[simp] theorem State.assertReset_busy (s : State) : (s.assertReset).busy = false := rfl

@[simp] theorem State.assertReset_cmd (s : State) : (s.assertReset).cmd = Command.empty := rfl

@[simp] theorem State.assertReset_response (s : State) : (s.assertReset).response = none := rfl

@[simp] theorem State.assertReset_host (s : State) : (s.assertReset).host = s.host := rfl

@[simp] theorem State.construct_idxw (s : State) : (s.construct).idxw = s.idxw := rfl

@[simp] theorem State.construct_strap (s : State) : (s.construct).strap = s.strap := rfl

@[simp] theorem State.construct_inReset (s : State) : (s.construct).inReset = false := rfl

@[simp] theorem State.construct_width (s : State) : (s.construct).width = s.strap := rfl

@[simp] theorem State.construct_cfgOk (s : State) : (s.construct).cfgOk = legalWidth s.strap := rfl

@[simp] theorem State.construct_busy (s : State) : (s.construct).busy = false := rfl

@[simp] theorem State.construct_cmd (s : State) : (s.construct).cmd = Command.empty := rfl

@[simp] theorem State.construct_response (s : State) : (s.construct).response = none := rfl

@[simp] theorem State.construct_host (s : State) : (s.construct).host = s.host := rfl

@[simp] theorem State.place_idxw (s : State) (hdr : Nat) : (s.place hdr).idxw = s.idxw := rfl

@[simp] theorem State.place_strap (s : State) (hdr : Nat) : (s.place hdr).strap = s.strap := rfl

@[simp] theorem State.place_inReset (s : State) (hdr : Nat) : (s.place hdr).inReset = false := rfl

@[simp] theorem State.place_width (s : State) (hdr : Nat) : (s.place hdr).width = s.width := rfl

@[simp] theorem State.place_cfgOk (s : State) (hdr : Nat) : (s.place hdr).cfgOk = s.cfgOk := rfl

@[simp] theorem State.place_busy (s : State) (hdr : Nat) : (s.place hdr).busy = true := rfl

@[simp] theorem State.place_cmd (s : State) (hdr : Nat) : (s.place hdr).cmd = { s.cmd with hdr := hdr } := rfl

@[simp] theorem State.place_response (s : State) (hdr : Nat) : (s.place hdr).response = none := rfl

@[simp] theorem State.place_host (s : State) (hdr : Nat) : (s.place hdr).host = .wait :: s.host := rfl

end Sys2Proof.Machine
end

