-- ==== Sys2Proof/Laws/Ops.lean ====
section
/-! SUPPORT. One lemma per shared operation: everything it can do. -/

namespace Sys2Proof.Machine

theorem respond_eq_next_iff {p : Payload} {s t : State} :
    respond p s = .next t ↔ t = s.complete { status := .ok, payload := some p } := by
  simp [respond, eq_comm]

theorem raiseError_eq_next_iff {e : Status} {s t : State} :
    raiseError e s = .next t ↔ t = s.complete { status := e, payload := none } := by
  simp [raiseError, eq_comm]

@[simp] theorem onValid_of_ok {s : State} {body : StepResult} (h : s.cfgOk = true) : onValid s body = body := by
  simp [onValid, h]

@[simp] theorem onValid_of_invalid {s : State} {body : StepResult} (h : s.cfgOk = false) :
    onValid s body = .next (s.complete { status := .errConfig, payload := none }) := by
  simp [onValid, h, raiseError]

/-- The validity test: either the instance is valid and the body decides, or the command ends with `ERR_CONFIG`. -/
theorem onValid_eq_next {s t : State} {body : StepResult} (h : onValid s body = .next t) :
    (s.cfgOk = true ∧ body = .next t) ∨
      (s.cfgOk = false ∧ t = s.complete { status := .errConfig, payload := none }) := by
  cases hc : s.cfgOk
  · rw [onValid_of_invalid hc] at h; cases h; exact .inr ⟨rfl, rfl⟩
  · rw [onValid_of_ok hc] at h; exact .inl ⟨rfl, h⟩

@[simp] theorem onOperand_none {body : StepResult} : onOperand none body = body := rfl

@[simp] theorem onOperand_some {q : Refusal} {body : StepResult} : onOperand (some q) body = .refused q := rfl

/-- The operand test: a next state means the operand passed and the body gave it. -/
theorem onOperand_eq_next {c : Option Refusal} {body : StepResult} {t : State}
    (h : onOperand c body = .next t) : c = none ∧ body = .next t := by
  cases c with
  | none => exact ⟨rfl, h⟩
  | some q => cases h

/-- The operand test never gives a fault of its own. -/
theorem onOperand_eq_fault {c : Option Refusal} {body : StepResult} {q : Fault}
    (h : onOperand c body = .fault q) : c = none ∧ body = .fault q := by
  cases c with
  | none => exact ⟨rfl, h⟩
  | some r => cases h

/-- Releasing reset constructs the instance if reset was asserted and does nothing else. -/
theorem releaseReset_cases (s : State) :
    (s.inReset = true ∧ s.releaseReset = s.construct) ∨ (s.inReset = false ∧ s.releaseReset = s) := by
  cases h : s.inReset
  · exact .inr ⟨rfl, by simp [State.releaseReset, h]⟩
  · exact .inl ⟨rfl, by simp [State.releaseReset, h]⟩

/-- A command offered to the block is accepted unless reset is asserted. -/
theorem offer_cases (s : State) (c : Command) :
    (s.inReset = true ∧ s.offer c = s) ∨ (s.inReset = false ∧ s.offer c = s.accept c) := by
  cases h : s.inReset
  · exact .inr ⟨rfl, by simp [State.offer, h]⟩
  · exact .inl ⟨rfl, by simp [State.offer, h]⟩

/-- What the host's move can be. -/
theorem hostMove_cases (s : State) :
    (s.host = [] ∧ s.hostMove = s) ∨
    (∃ rest, s.host = .wait :: rest ∧ s.hostMove = { s with host := rest }) ∨
    (∃ v rest, s.host = .driveStrap v :: rest ∧ s.hostMove = { s with host := rest, strap := v }) ∨
    (∃ rest, s.host = .assertReset :: rest ∧ s.hostMove = State.assertReset { s with host := rest }) ∨
    (∃ rest, s.host = .releaseReset :: rest ∧ s.hostMove = State.releaseReset { s with host := rest }) ∨
    (∃ c rest, s.host = .issue c :: rest ∧ s.hostMove = State.offer { s with host := rest } c) := by
  unfold State.hostMove
  cases h : s.host with
  | nil => simp
  | cons e rest => cases e <;> simp

/-- The block's turn leaves everything as it is but, after a `wait`, the host's queue. -/
theorem afterWait_cases (s : State) :
    (∃ rest, s.host = .wait :: rest ∧ s.afterWait = { s with host := rest }) ∨ s.afterWait = s := by
  unfold State.afterWait
  cases h : s.host with
  | nil => simp
  | cons e rest => cases e <;> simp

@[simp] theorem afterWait_idxw (s : State) : s.afterWait.idxw = s.idxw := by
  rcases afterWait_cases s with ⟨_, _, h⟩ | h <;> rw [h]
@[simp] theorem afterWait_width (s : State) : s.afterWait.width = s.width := by
  rcases afterWait_cases s with ⟨_, _, h⟩ | h <;> rw [h]
@[simp] theorem afterWait_cfgOk (s : State) : s.afterWait.cfgOk = s.cfgOk := by
  rcases afterWait_cases s with ⟨_, _, h⟩ | h <;> rw [h]
@[simp] theorem afterWait_cmd (s : State) : s.afterWait.cmd = s.cmd := by
  rcases afterWait_cases s with ⟨_, _, h⟩ | h <;> rw [h]
@[simp] theorem afterWait_inReset (s : State) : s.afterWait.inReset = s.inReset := by
  rcases afterWait_cases s with ⟨_, _, h⟩ | h <;> rw [h]

/-- What a step that answers a next state did: the block performed its decoded command, or the host moved. -/
theorem step_eq_next {s t : State} (h : step s = .next t) :
    (s.blockTurn = true ∧ ∃ i, decodeHeader s.idxw s.cmd.hdr = .ok i ∧ exec i s.afterWait = .next t) ∨
      (s.blockTurn = false ∧ t = s.hostMove) := by
  unfold step at h
  cases hb : s.blockTurn
  · rw [hb] at h; simp at h; exact .inr ⟨rfl, h.symm⟩
  · rw [hb] at h
    cases hf : s.fetch with
    | ok i => rw [hf] at h; exact .inl ⟨rfl, i, hf, by simpa using h⟩
    | error e => rw [hf] at h; simp at h

/-- The scan inside both operands: it ends, at the first index at which the words differ, else at the effective end. -/
theorem scanWords_spec {w : Nat} {a b : ByteString} {eff : Nat} (n i : Nat)
    (hw : w = 1 ∨ w = 2 ∨ w = 4 ∨ w = 8) (he : i + n = eff)
    (ha : eff ≤ totalWords w a) (hb : eff ≤ totalWords w b) :
    ∃ r, scanWords w a b eff n i = some r ∧ i ≤ r ∧ r ≤ eff ∧
      (∀ j, i ≤ j → j < r → wordOf w a j = wordOf w b j) ∧ (r < eff → wordOf w a r ≠ wordOf w b r) := by
  induction n generalizing i with
  | zero => exact ⟨eff, rfl, by omega, by omega, by intro j h1 h2; omega, by omega⟩
  | succ n ih =>
    have h1 := wordOf_of_lt (i := i) hw (show i < totalWords w a by omega)
    have h2 := wordOf_of_lt (i := i) hw (show i < totalWords w b by omega)
    obtain ⟨r, hr, h3, h4, h5, h6⟩ := ih (i + 1) (by omega)
    by_cases hxy : wordOf w a i = wordOf w b i
    · refine ⟨r, ?_, by omega, h4, ?_, h6⟩
      · rw [h1, h2] at hxy
        simp only [scanWords, h1, h2]
        rw [if_pos (Option.some.inj hxy)]
        exact hr
      · intro j hj1 hj2
        rcases Nat.eq_or_lt_of_le hj1 with rfl | hj
        · exact hxy
        · exact h5 j (by omega) hj2
    · refine ⟨i, ?_, by omega, by omega, by intro j hj1 hj2; omega, fun _ => hxy⟩
      have hne := hxy
      rw [h1, h2] at hne
      simp only [scanWords, h1, h2]
      rw [if_neg (fun h => hne (congrArg some h))]

end Sys2Proof.Machine
end

