-- ==== Sys2Proof/Laws/PerInstr.lean ====
section
/-! SUPPORT. Statements for every instruction, one lemma per constructor: its header has the length of the format and
carries its operation code (30_encoding.md rules R70, R71). -/

namespace Sys2Proof.Laws.HeaderInFormat

/-- The header of a well-formed instruction has at most `2*IDXW + 3` bits, and its low three bits are its operation code. -/
def Statement (i : Instr) : Prop :=
  ∀ idxw, i.wellFormed idxw = true → encodeHeader idxw i < 2 ^ headerBits idxw ∧ encodeHeader idxw i % 8 = opOf i

/-- The header word as a sum: the fields do not overlap. -/
theorem header_eq_sum {idxw f e op : Nat} (hf : f < 2 ^ idxw) (ho : op < 8) :
    (e <<< (idxw + 3)) ||| (f <<< 3) ||| op = e * 2 ^ (idxw + 3) + f * 8 + op := by
  have h1 : f <<< 3 < 2 ^ (idxw + 3) := by
    rw [Nat.shiftLeft_eq, Nat.pow_add]; exact Nat.mul_lt_mul_of_pos_right hf (by norm_num)
  have h2 : (e <<< (idxw + 3)) ||| (f <<< 3) = e * 2 ^ (idxw + 3) + f * 8 := by
    rw [← Nat.shiftLeft_add_eq_or_of_lt h1, Nat.shiftLeft_eq, Nat.shiftLeft_eq]
  have h3 : e * 2 ^ (idxw + 3) + f * 8 = (e * 2 ^ idxw + f) <<< 3 := by
    rw [Nat.shiftLeft_eq, Nat.pow_add]; ring
  rw [h2, h3, ← Nat.shiftLeft_add_eq_or_of_lt (show op < 2 ^ 3 by omega)]

/-- The sum of in-range fields is below `2^(2*IDXW + 3)`. -/
theorem header_sum_lt {idxw f e op : Nat} (hf : f < 2 ^ idxw) (he : e < 2 ^ idxw) (ho : op < 8) :
    e * 2 ^ (idxw + 3) + f * 8 + op < 2 ^ headerBits idxw := by
  have h : 2 ^ headerBits idxw = 2 ^ idxw * (2 ^ idxw * 8) := by
    unfold headerBits; rw [show 2 * idxw + 3 = idxw + (idxw + 3) by ring, Nat.pow_add, Nat.pow_add]
  have h' : 2 ^ (idxw + 3) = 2 ^ idxw * 8 := by rw [Nat.pow_add]
  rw [h, h']
  calc e * (2 ^ idxw * 8) + f * 8 + op < e * (2 ^ idxw * 8) + 2 ^ idxw * 8 := by omega
    _ = (e + 1) * (2 ^ idxw * 8) := by ring
    _ ≤ 2 ^ idxw * (2 ^ idxw * 8) := Nat.mul_le_mul_right _ he

/-- The statement for a header with in-range fields and a code below 8. -/
theorem inFormat_of_fields {idxw f e op : Nat} (hf : f < 2 ^ idxw) (he : e < 2 ^ idxw) (ho : op < 8) :
    (e <<< (idxw + 3)) ||| (f <<< 3) ||| op < 2 ^ headerBits idxw ∧
      ((e <<< (idxw + 3)) ||| (f <<< 3) ||| op) % 8 = op := by
  rw [header_eq_sum hf ho]
  refine ⟨header_sum_lt hf he ho, ?_⟩
  have h : e * 2 ^ (idxw + 3) = (e * 2 ^ idxw) * 8 := by rw [Nat.pow_add]; ring
  rw [h]
  omega

/-- What well-formedness says of the fields. -/
theorem fields_lt {idxw : Nat} {i : Instr} (h : i.wellFormed idxw = true) :
    i.fromIdx < 2 ^ idxw ∧ i.endIdx < 2 ^ idxw := by
  simpa [Instr.wellFormed] using h

theorem encode (f e : Nat) : Statement (.encode f e) := fun _ h =>
  inFormat_of_fields (op := 0) (fields_lt h).1 (fields_lt h).2 (by decide)

theorem decode (f e : Nat) : Statement (.decode f e) := fun _ h =>
  inFormat_of_fields (op := 1) (fields_lt h).1 (fields_lt h).2 (by decide)

theorem encodeall (f e : Nat) : Statement (.encodeall f e) := fun _ h =>
  inFormat_of_fields (op := 2) (fields_lt h).1 (fields_lt h).2 (by decide)

theorem decodeall (f e : Nat) : Statement (.decodeall f e) := fun _ h =>
  inFormat_of_fields (op := 3) (fields_lt h).1 (fields_lt h).2 (by decide)

theorem wordat (f e : Nat) : Statement (.wordat f e) := fun _ h =>
  inFormat_of_fields (op := 4) (fields_lt h).1 (fields_lt h).2 (by decide)

theorem firstdiv (f e : Nat) : Statement (.firstdiv f e) := fun _ h =>
  inFormat_of_fields (op := 5) (fields_lt h).1 (fields_lt h).2 (by decide)

theorem reserved6 (f e : Nat) : Statement (.reserved6 f e) := fun _ h =>
  inFormat_of_fields (op := 6) (fields_lt h).1 (fields_lt h).2 (by decide)

theorem reserved7 (f e : Nat) : Statement (.reserved7 f e) := fun _ h =>
  inFormat_of_fields (op := 7) (fields_lt h).1 (fields_lt h).2 (by decide)

end Sys2Proof.Laws.HeaderInFormat
end

