-- ==== Sys2Proof/Laws/Safety.lean ====
section
/-! SUPPORT. The invariant and the typed payloads in propositions. -/

namespace Sys2Proof.Machine

/-- The clauses of the invariant. -/
theorem State.inv_iff (s : State) : s.inv = true ↔
    5 ≤ s.idxw ∧ s.cfgOk = legalWidth s.width ∧ (s.busy = false → s.cmd = Command.empty) ∧
      (s.inReset = true → s.busy = false ∧ s.response = none) ∧ (s.busy = true → s.response = none) ∧
      (∀ r, s.response = some r → r.typed s.idxw s.w s.cfgOk = true) := by
  unfold State.inv
  cases s.busy <;> cases s.inReset <;> cases s.response <;> simp [and_assoc]

/-- A valid instance has a valid width. -/
theorem width_cases_of_inv {s : State} (h : s.inv = true) (hc : s.cfgOk = true) :
    s.w = 1 ∨ s.w = 2 ∨ s.w = 4 ∨ s.w = 8 :=
  legalWidth_cases (((s.inv_iff.1 h).2.1).symm.trans hc)

/-- An `OK` response is well formed exactly on a valid instance and with a payload of the result types. -/
theorem Response.typed_ok_iff (idxw w : Nat) (cfgOk : Bool) (p : Payload) :
    Response.typed idxw w cfgOk { status := .ok, payload := some p } = true ↔
      p.typed idxw w = true ∧ cfgOk = true := by
  cases cfgOk <;> simp [Response.typed]

/-- An error response is well formed exactly when it is `ERR_CONFIG` on an invalid instance or another error on a valid
one. -/
theorem Response.typed_error_iff (idxw w : Nat) (cfgOk : Bool) (e : Status) :
    Response.typed idxw w cfgOk { status := e, payload := none } = true ↔
      e ≠ .ok ∧ (e = .errConfig ↔ cfgOk = false) := by
  cases cfgOk <;> cases e <;> simp [Response.typed]

end Sys2Proof.Machine
end

