-- ==== Sys2Proof/Tests/Slice0.lean ====
section
/-! SUPPORT. The model's own tests: ill-formed headers, headers written out bit by bit, the vectors of
95_test_vectors.md, and for every statement with hypotheses a state that meets them. -/

namespace Sys2Proof.Tests

open Sys2Proof.Machine

/-- An instance of a width with a command in flight, `IDXW = 32`. -/
def inst (w : BitVec 4) (c : Command) : State :=
  { State.reset with strap := w, width := w, cfgOk := legalWidth w, busy := true, cmd := c }

/-- The response of the next state. -/
def answer (r : StepResult) : Option Response :=
  match r with
  | .next t => t.response
  | .fault _ => none
  | .refused _ => none

/-- The response to a line, in one step of an instance of a width. -/
def reply (w : BitVec 4) (l : AsmLine) : Option Response :=
  match l.assemble 32 with
  | some c => answer (step (inst w c))
  | none => none

/-- An `OK` response. -/
def okR (p : Payload) : Option Response := some { status := .ok, payload := some p }

/-- An error response. -/
def errR (e : Status) : Option Response := some { status := e, payload := none }

/-! ### Headers -/

/-- A `from` field of 33 bits is refused; the same with 32 bits stands. -/
theorem test_illformed_from :
    (Instr.wordat (2 ^ 32) 0).wellFormed 32 = false ∧ (Instr.wordat (2 ^ 32 - 1) 0).wellFormed 32 = true := by decide

/-- An `end` field of 33 bits is refused; the same with 32 bits stands. -/
theorem test_illformed_end :
    (Instr.firstdiv 0 (2 ^ 32)).wellFormed 32 = false ∧ (Instr.firstdiv 0 (2 ^ 32 - 1)).wellFormed 32 = true := by decide

/-- 30_encoding.md R70, R71 at `IDXW = 5`: 13-bit headers written out as end(5) from(5) op(3). -/
theorem test_decode_bits :
    decodeHeader 5 0b00000_00000_000 = .ok (.encode 0 0) ∧
    decodeHeader 5 0b01001_01001_000 = .ok (.encode 9 9) ∧
    decodeHeader 5 0b00000_00000_001 = .ok (.decode 0 0) ∧
    decodeHeader 5 0b00000_00000_010 = .ok (.encodeall 0 0) ∧
    decodeHeader 5 0b00000_00000_011 = .ok (.decodeall 0 0) ∧
    decodeHeader 5 0b00000_00010_100 = .ok (.wordat 2 0) ∧
    decodeHeader 5 0b11111_00111_101 = .ok (.firstdiv 7 31) ∧
    decodeHeader 5 0b10000_00001_110 = .ok (.reserved6 1 16) ∧
    decodeHeader 5 0b00001_10000_111 = .ok (.reserved7 16 1) ∧
    decodeHeader 5 0b1_00000_00000_000 = .error .headerTooWide := by decide

/-- Headers of 95_test_vectors.md section 2.7 and programs P2, P3, P5 (`IDXW = 32`), by the encoder. -/
theorem test_encode_headers :
    encodeHeader 32 (.encode 9 9) = 0x4800000048 ∧ encodeHeader 32 (.firstdiv 5 5) = 0x280000002D ∧
    encodeHeader 32 (.wordat 2 0) = 0x14 ∧ encodeHeader 32 (.wordat 7 0) = 0x3C ∧
    encodeHeader 32 (.firstdiv 0 8) = 0x4000000005 ∧ encodeHeader 32 (.firstdiv 2 7) = 0x3800000015 ∧
    encodeHeader 32 (.firstdiv 0 4294967295) = 0x7FFFFFFF800000005 ∧
    encodeHeader 32 (.firstdiv 8 4294967295) = 0x7FFFFFFF800000045 ∧
    encodeHeader 32 (.firstdiv 100 100) = 0x32000000325 := by decide

/-- Every row of the opcode table, as the host numbers it. -/
theorem test_table_words :
    decodeTableWord 8 0 = some (.encode 0 0) ∧ decodeTableWord 8 1 = some (.decode 0 0) ∧
    decodeTableWord 8 2 = some (.encodeall 0 0) ∧ decodeTableWord 8 3 = some (.decodeall 0 0) ∧
    decodeTableWord 8 4 = some (.wordat 0 0) ∧ decodeTableWord 8 5 = some (.firstdiv 0 0) ∧
    decodeTableWord 8 6 = some (.reserved6 0 0) ∧ decodeTableWord 8 7 = some (.reserved7 0 0) := by decide

/-- Every row runs as the first command after reset: empty operands, so an empty result, `ERR_INDEX`, index 0, `ERR_OP`
(40_codec.md R91, R94; 41_accessor.md R112; 42_comparator.md R125; 30_encoding.md R74). -/
theorem test_first_command_after_reset :
    answer (step (State.reset.withFetchWord 8 0)) = okR (.words []) ∧
    answer (step (State.reset.withFetchWord 8 1)) = okR (.bytes []) ∧
    answer (step (State.reset.withFetchWord 8 2)) = okR (.wordSeqs []) ∧
    answer (step (State.reset.withFetchWord 8 3)) = okR (.byteStrings []) ∧
    answer (step (State.reset.withFetchWord 8 4)) = errR .errIndex ∧
    answer (step (State.reset.withFetchWord 8 5)) = okR (.index 0) ∧
    answer (step (State.reset.withFetchWord 8 6)) = errR .errOp ∧
    answer (step (State.reset.withFetchWord 8 7)) = errR .errOp := by decide

/-! ### Vectors: 95_test_vectors.md -/

/-- Section 2.1, rows `<A7>`, `<61 62>`, `<12 30>`, `<80 01>`, and S3. -/
theorem test_encode_vectors :
    encodeBytes 1 [0xA7] = [1, 0, 1, 0, 0, 1, 1, 1] ∧ encodeBytes 2 [0xA7] = [2, 2, 1, 3] ∧
    encodeBytes 4 [0xA7] = [10, 7] ∧ encodeBytes 8 [0xA7] = [167] ∧
    encodeBytes 1 [0x61] = [0, 1, 1, 0, 0, 0, 0, 1] ∧
    encodeBytes 2 [0x61, 0x62] = [1, 2, 0, 1, 1, 2, 0, 2] ∧ encodeBytes 4 [0x61, 0x62] = [6, 1, 6, 2] ∧
    encodeBytes 2 [0x12, 0x30] = [0, 1, 0, 2, 0, 3, 0, 0] ∧ encodeBytes 4 [0x12, 0x30] = [1, 2, 3, 0] ∧
    encodeBytes 1 [0x80, 0x01] = [1, 0, 0, 0, 0, 0, 0, 0, 0, 0, 0, 0, 0, 0, 0, 1] ∧
    encodeBytes 2 [0x80, 0x01] = [2, 0, 0, 0, 0, 0, 0, 1] ∧ encodeBytes 8 [0x80, 0x01] = [128, 1] := by decide

/-- Section 2.7, last row: `from = 9`, `end = 9` are ignored. -/
theorem test_encode_step :
    answer (step (inst 4#4 { Command.empty with hdr := 0x4800000048, a := [0x61] })) = okR (.words [6, 1]) := by decide

/-- Section 2.2 and S1, S2. -/
theorem test_decode_vectors :
    decodeWords 1 [] = [] ∧ decodeWords 1 [1, 0, 1, 0, 0, 1, 1, 1] = [0xA7] ∧ decodeWords 1 [1] = [0x80] ∧
    decodeWords 1 [0, 0, 0, 0, 0, 0, 0, 1, 1] = [0x01, 0x80] ∧ decodeWords 2 [2, 2, 1, 3] = [0xA7] ∧
    decodeWords 2 [3] = [0xC0] ∧ decodeWords 2 [1, 2, 0] = [0x60] ∧ decodeWords 2 [0, 0, 3] = [0x0C] ∧
    decodeWords 2 [1, 2, 0, 1, 3] = [0x61, 0xC0] ∧ decodeWords 4 [15] = [0xF0] ∧ decodeWords 4 [0] = [0x00] ∧
    decodeWords 4 [3] = [0x30] ∧ decodeWords 8 [97, 0, 255] = [0x61, 0x00, 0xFF] := by decide

/-- S2 as a command; and a word cell 16 at `WIDTH = 4` is outside the operand type (10_state.md R30). -/
theorem test_decode_step :
    reply 4#4 (.decode [1, 2, 3]) = okR (.bytes [0x12, 0x30]) ∧ reply 4#4 (.decode [1, 16]) = none := by decide

/-- Section 2.4, first and third row. -/
theorem test_encodeall_step :
    reply 4#4 (.encodeall [[0x61], [], [0x61, 0x62]]) = okR (.wordSeqs [[6, 1], [], [6, 1, 6, 2]]) ∧
    reply 8#4 (.encodeall [[0x61], [], [0x61, 0x62]]) = okR (.wordSeqs [[97], [], [97, 98]]) := by decide

/-- Section 2.4, fourth and fifth row: each element is padded on its own. -/
theorem test_decodeall_step :
    reply 4#4 (.decodeall [[1, 2, 3], [], [6, 1]]) = okR (.byteStrings [[0x12, 0x30], [], [0x61]]) ∧
    reply 2#4 (.decodeall [[3], [3]]) = okR (.byteStrings [[0xC0], [0xC0]]) := by decide

/-- Section 2.5: `s = <A7 61>` at width 2, and the worked addresses. -/
theorem test_wordat_vectors :
    (List.range 9).map (fun i => wordOf 2 [0xA7, 0x61] i) =
      [some 2, some 2, some 1, some 3, some 1, some 2, some 0, some 1, none] ∧
    wordOf 1 [0xA7, 0x61] 15 = some 1 ∧ wordOf 4 [0xA7, 0x61] 1 = some 7 ∧ wordOf 8 [0x80, 0x01] 0 = some 128 := by
  decide

/-- Section 2.7: in range, one past the end, on the empty byte string, and a host's negative index. -/
theorem test_wordat_step :
    reply 4#4 (.wordat [0x61] 1) = okR (.word 1) ∧ reply 4#4 (.wordat [0x61] 2) = errR .errIndex ∧
    reply 1#4 (.wordat [] 0) = errR .errIndex ∧ reply 2#4 (.wordat [0xA7, 0x61] (-1)) = errR .errIndex := by decide

/-- 42_comparator.md R131 (S4 to S9 among its rows), with `-1` as `2^32 - 1`. -/
theorem test_firstdiv_vectors :
    firstDiv 1 [0x61] [0x62] 0 7 = some 6 ∧ firstDiv 1 [0x61] [0x62] 0 6 = some 6 ∧
    firstDiv 2 [0x61, 0x61] [0x61, 0x62] 2 7 = some 7 ∧ firstDiv 4 [0x61, 0x61] [0x61, 0x62] 0 4 = some 3 ∧
    firstDiv 8 [0x61, 0x61] [0x61, 0x62] 0 1000 = some 1 ∧
    firstDiv 4 [0x61, 0x61, 0x61] [0x61, 0x61, 0x61] 0 4294967295 = some 6 ∧
    firstDiv 1 [0x61] [0x62] 100 100 = some 100 ∧ firstDiv 1 [] [] 3 3 = some 3 ∧ firstDiv 1 [] [] 3 4 = some 0 ∧
    firstDiv 1 [] [0x61] 0 5 = some 0 ∧ firstDiv 8 [0x61] [0x61, 0x62] 0 10 = some 1 ∧
    firstDiv 4 [0x61, 0x62] [0x61] 0 10 = some 2 ∧ firstDiv 1 [0x61] [0x62] 10 20 = some 8 ∧
    firstDiv 1 [0x61] [0x62] 5 3 = some 3 ∧ firstDiv 1 [0x61] [0x62] 7 100 = some 7 ∧
    firstDiv 1 [0x61] [0x62] 8 100 = some 8 ∧ firstDiv 1 [0x61] [0x62] 0 4294967295 = some 6 ∧
    firstDiv 1 [0x61] [0x61] 4294967295 4294967295 = some 4294967295 ∧
    firstDiv 1 [0x61] [0x61] 4294967295 5 = some 5 ∧
    firstDivFast 1 [0x61, 0x62, 0x63] [0x61, 0x62, 0x64] 0 100 = some 21 ∧
    firstDiv 1 [0x61, 0x62, 0x63] [0x61, 0x62, 0x64] 0 100 = some 21 := by decide

/-- S9 and P2 step 5 as commands. -/
theorem test_firstdiv_step :
    reply 4#4 (.firstdiv [0x61, 0x61, 0x61] [0x61, 0x61, 0x61] 0 (-1)) = okR (.index 6) ∧
    reply 2#4 (.firstdiv [0x61, 0x61] [0x61, 0x62] 2 7) = okR (.index 7) := by decide

/-- Section 2.7: the reserved codes, on a valid and on an invalid instance. -/
theorem test_reserved_step :
    answer (step (inst 4#4 { Command.empty with hdr := 6 })) = errR .errOp ∧
    answer (step (inst 4#4 { Command.empty with hdr := 7 })) = errR .errOp ∧
    answer (step (inst 3#4 { Command.empty with hdr := 6 })) = errR .errConfig := by decide

/-- P4, and the `WIDTH = 0` row of section 2.7. -/
theorem test_invalid_instance_step :
    reply 3#4 (.encode [0x61]) = errR .errConfig ∧ reply 3#4 (.wordat [0x61] 0) = errR .errConfig ∧
    reply 3#4 (.decodeall []) = errR .errConfig ∧ reply 0#4 (.firstdiv [0x61] [0x61] 5 5) = errR .errConfig := by decide

/-- Response words of section 2.7 and P2; an error's `value` bits are free. -/
theorem test_response_words :
    Response.carriedBy 32 { status := .ok, payload := some (.word 1) } 0x4 = true ∧
    Response.carriedBy 32 { status := .ok, payload := some (.words [6, 1]) } 0x8 = true ∧
    Response.carriedBy 32 { status := .ok, payload := some (.index 7) } 0x1C = true ∧
    Response.carriedBy 32 { status := .ok, payload := some (.index 7) } 0x20 = false ∧
    Response.carriedBy 32 { status := .errIndex, payload := none } 0x2 = true ∧
    Response.carriedBy 32 { status := .errIndex, payload := none } 0x6 = true ∧
    Response.carriedBy 32 { status := .errOp, payload := none } 0x2 = false ∧ rspWord .ok 7 = 0x1C := by decide

/-! ### The line syntax: 30_encoding.md R80, R81 -/

theorem test_parse_lines :
    parseLine "ENCODE <61 62>".toList = some (.encode [0x61, 0x62]) ∧
    parseLine "DECODE [1,2,3]".toList = some (.decode [1, 2, 3]) ∧
    parseLine "DECODE []".toList = some (.decode []) ∧
    parseLine "WORDAT <A7 61>, 0x80000000".toList = some (.wordat [0xA7, 0x61] 2147483648) ∧
    parseLine "FIRSTDIV <>, <0C>, 0, -1".toList = some (.firstdiv [] [0x0C] 0 (-1)) ∧
    parseLine "NOP".toList = none := by decide

theorem test_parse_quoted_and_batches :
    parseLine ("ENCODE ".toList ++ [chQuote, 'a', 'b', chQuote]) = some (.encode [0x61, 0x62]) ∧
    parseLine ("ENCODEALL ".toList ++ [chOpen, chQuote, 'a', chQuote, ';', ' ', chQuote, chQuote, chClose]) =
      some (.encodeall [[0x61], []]) ∧
    parseLine ("DECODEALL ".toList ++ chOpen :: "[1,2,3]; []; [6,1]".toList ++ [chClose]) =
      some (.decodeall [[1, 2, 3], [], [6, 1]]) ∧
    parseLine ("ENCODEALL ".toList ++ [chOpen, chClose]) = some (.encodeall []) ∧
    parseProgram ["WIDTH = 4".toList, "DECODE [1,2,3]".toList] =
      some { width := 4#4, lines := [.decode [1, 2, 3]] } := by decide

theorem test_response_text :
    Response.text { status := .ok, payload := some (.bytes [0x12, 0x30]) } = "-> OK <12 30>".toList ∧
    Response.text { status := .ok, payload := some (.words [10, 7]) } = "-> OK [10,7]".toList ∧
    Response.text { status := .ok, payload := some (.wordSeqs [[6, 1], []]) } =
      "-> OK ".toList ++ chOpen :: "[6,1]; []".toList ++ [chClose] ∧
    Response.text { status := .errIndex, payload := none } = "-> ERR_INDEX".toList := by decide

/-- A program's start, and one command of it: issue, then the response (95_test_vectors.md part 3, P1 step 3). -/
theorem test_program_start :
    (AsmProgram.start 32 { width := 4#4, lines := [.decode [1, 2, 3]] }).map (fun s => (s.inv, safeRun 2 s)) =
      some (true, true) ∧
    (AsmProgram.start 32 { width := 4#4, lines := [.wordat [0x61] 2] }).map (safeRun 2) = some false := by decide

/-! ### Witnesses: states and operands that meet the hypotheses of each statement -/

/-- A valid instance of width 4 with an operand for every operation. -/
def full : State :=
  inst 4#4 { hdr := 0, a := [0x61, 0x61], b := [0x61, 0x62], ws := [1, 2, 3], sa := [[0x61], []], sw := [[1, 2, 3], []] }

theorem witness_validAB : Spec.validAB full := by
  refine ⟨⟨by decide, by decide, ?_⟩, ?_⟩ <;> unfold Spec.byteStringTyped <;> decide

theorem witness_validA : Spec.validA full := witness_validAB.1

theorem witness_wordSeqTyped :
    full.inv = true ∧ full.cfgOk = true ∧ Spec.wordSeqTyped full.idxw full.width.toNat full.cmd.ws := by
  refine ⟨by decide, by decide, ?_⟩; unfold Spec.wordSeqTyped; decide

theorem witness_encodeall_typed :
    full.inv = true ∧ full.cfgOk = true ∧
      Spec.operandsTyped full.idxw full.width.toNat (.encodeall 0 0) full.cmd ∧ full.cmd.sa[1]? = some [] := by
  refine ⟨by decide, by decide, ?_, by decide⟩; unfold Spec.operandsTyped Spec.byteStringTyped; decide

theorem witness_decodeall_typed :
    full.inv = true ∧ full.cfgOk = true ∧
      Spec.operandsTyped full.idxw full.width.toNat (.decodeall 0 0) full.cmd ∧
      full.cmd.sw[0]? = some [1, 2, 3] := by
  refine ⟨by decide, by decide, ?_, by decide⟩; unfold Spec.operandsTyped Spec.wordSeqTyped; decide

theorem witness_concatenation :
    full.inv = true ∧ full.cfgOk = true ∧ Spec.byteStringTyped full.idxw ([0x61] ++ [0x62]) := by
  refine ⟨by decide, by decide, ?_⟩; unfold Spec.byteStringTyped; decide

/-- The second instance of the two round-trip laws: same width, the other's result as its operand. -/
def back : State :=
  inst 4#4 { Command.empty with hdr := 1, a := decodeWords 4 [1, 2, 3], ws := encodeBytes 4 [0x61, 0x61] }

theorem witness_round_trip :
    Spec.validA full ∧ exec (.encode 0 0) full = Spec.ok full (.words back.cmd.ws) ∧
      back.inv = true ∧ back.cfgOk = true ∧ back.width = full.width ∧ back.idxw = full.idxw :=
  ⟨witness_validA, rfl, by decide, by decide, by decide, by decide⟩

theorem witness_converse :
    full.inv = true ∧ full.cfgOk = true ∧ Spec.wordSeqTyped full.idxw full.width.toNat full.cmd.ws ∧
      exec (.decode 0 0) full = Spec.ok full (.bytes back.cmd.a) ∧ back.inv = true ∧ back.cfgOk = true ∧
      back.width = full.width ∧ back.idxw = full.idxw :=
  ⟨by decide, by decide, witness_wordSeqTyped.2.2, rfl, by decide, by decide, by decide, by decide⟩

/-- The same bytes at widths 2 and 8. -/
def view (w : BitVec 4) : State := inst w { Command.empty with a := [0xA7] }

theorem witness_nesting :
    Spec.validA (view 2#4) ∧ Spec.validA (view 4#4) ∧ Spec.validA (view 8#4) ∧
      (view 4#4).cmd.a = (view 2#4).cmd.a ∧ (view 4#4).width.toNat = 2 * (view 2#4).width.toNat ∧
      1 < (view 2#4).cmd.a.length * (8 / (view 4#4).width.toNat) ∧ (view 8#4).width = 8#4 := by
  refine ⟨⟨by decide, by decide, ?_⟩, ⟨by decide, by decide, ?_⟩, ⟨by decide, by decide, ?_⟩, by decide, by decide,
    by decide, by decide⟩ <;> unfold Spec.byteStringTyped <;> decide

theorem witness_wordat_in_range : Spec.validA full ∧ 3 < full.cmd.a.length * (8 / full.width.toNat) :=
  ⟨witness_validA, by decide⟩

theorem witness_wordat_out_of_range :
    (Spec.validA full ∧ full.cmd.a.length * (8 / full.width.toNat) ≤ 4) ∧
    (Spec.validA (inst 4#4 Command.empty) ∧ (inst 4#4 Command.empty).cmd.a = []) ∧
    (Spec.validA full ∧ hostIndex full.idxw (-((1 : Nat) : Int)) = some (2 ^ 32 - 1)) := by
  refine ⟨⟨witness_validA, by decide⟩, ⟨⟨by decide, by decide, ?_⟩, by decide⟩, ⟨witness_validA, by decide⟩⟩
  unfold Spec.byteStringTyped; decide

/-- Two operands that differ outside the byte of index 0, in a state each. -/
def tail (x : Byte) : State := inst 4#4 { Command.empty with a := [0xA7, x] }

theorem witness_one_byte :
    (tail 0x00).inv = true ∧ (tail 0xFF).inv = true ∧ (tail 0xFF).width = (tail 0x00).width ∧
      (tail 0xFF).idxw = (tail 0x00).idxw ∧ (tail 0xFF).cfgOk = (tail 0x00).cfgOk ∧
      (tail 0xFF).cmd.a.length = (tail 0x00).cmd.a.length ∧
      0 < totalWords (tail 0x00).width.toNat (tail 0x00).cmd.a ∧
      (tail 0xFF).cmd.a[0 * (tail 0x00).width.toNat / 8]? = (tail 0x00).cmd.a[0 * (tail 0x00).width.toNat / 8]? ∧
      (tail 0xFF).cmd.a ≠ (tail 0x00).cmd.a := by decide

/-- `"aa"` and `"ab"` at width 4: total 4, first difference at index 3 (S7). -/
theorem witness_firstdiv_in_range :
    Spec.validAB full ∧ 0 ≤ 4 ∧ 4 ≤ Spec.minTotal full ∧ ¬ Spec.agreeAt full 3 ∧
      (∀ i, 0 ≤ i → i < 3 → Spec.agreeAt full i) := by
  refine ⟨witness_validAB, by decide, by decide, ?_, fun i _ h => ?_⟩
  · unfold Spec.agreeAt; decide
  · unfold Spec.agreeAt
    rcases i with _ | _ | _ | i
    · decide
    · decide
    · decide
    · omega

/-- No difference below the end. -/
theorem witness_firstdiv_no_difference :
    Spec.validAB full ∧ 2 ≤ Spec.minTotal full ∧ ∀ i, 0 ≤ i → i < 2 → Spec.agreeAt full i :=
  ⟨witness_validAB, by decide, fun i _ h => witness_firstdiv_in_range.2.2.2.2 i (Nat.zero_le i) (by omega)⟩

/-- The clauses of the scan meet nowhere: `from` below, at and above the effective end (total 4). -/
theorem witness_firstdiv_clauses :
    Spec.validAB full ∧ (3 ≠ 5 ∧ 3 < min 5 (Spec.minTotal full)) ∧ (4 ≠ 5 ∧ min 5 (Spec.minTotal full) ≤ 4) ∧
      (5 ≠ 4 ∧ min 4 (Spec.minTotal full) ≤ 5) := ⟨witness_validAB, by decide, by decide, by decide⟩

theorem witness_firstdiv_beyond :
    Spec.validAB full ∧ (6 ≠ 9 ∧ min 9 (Spec.minTotal full) ≤ 6) ∧ (Spec.minTotal full ≤ 4 ∧ 4 < 5) ∧ 3 < 4 ∧
      (hostIndex full.idxw (-((1 : Nat) : Int)) = some (2 ^ 32 - 1) ∧ 2 ^ 32 - 1 ≠ 5) :=
  ⟨witness_validAB, by decide, by decide, by decide, by decide⟩

/-- The regression case of 42_comparator.md R124. -/
def aaa : State := inst 4#4 { Command.empty with a := [0x61, 0x61, 0x61], b := [0x61, 0x61, 0x61] }

theorem witness_negative_end :
    (Spec.validAB full ∧ hostIndex full.idxw (-((2 ^ 31 : Nat) : Int)) = some (2 ^ 31) ∧ 0 ≠ 2 ^ 31) ∧
    (Spec.validAB aaa ∧ aaa.width = 4#4 ∧ aaa.cmd.a = [0x61, 0x61, 0x61] ∧ aaa.cmd.b = [0x61, 0x61, 0x61] ∧
      hostIndex aaa.idxw (-1) = some (2 ^ 32 - 1)) := by
  refine ⟨⟨witness_validAB, by decide, by decide⟩, ⟨⟨by decide, by decide, ?_⟩, ?_⟩, by decide, by decide, by decide, by decide⟩ <;>
    unfold Spec.byteStringTyped <;> decide

theorem witness_negative_index :
    5 ≤ 5 ∧ 1 ≤ 16 ∧ 16 ≤ 2 ^ (5 - 1) ∧ Spec.byteStringTyped 5 [0xFF] := by
  refine ⟨by decide, by decide, by decide, ?_⟩; unfold Spec.byteStringTyped; decide

theorem witness_invalid_instance : (inst 3#4 Command.empty).cfgOk = false ∧ (inst 3#4 Command.empty).inv = true := by decide

theorem witness_invariant_step : full.inv = true ∧ step full = Spec.ok full (.words [6, 1, 6, 1]) := ⟨by decide, rfl⟩

/-- An idle instance with a host about to act. -/
def idleWith (h : List HostEvent) : State := { State.reset with host := h }

theorem witness_construction :
    ({ idleWith [.releaseReset] with inReset := true, strap := 3#4 } : State).inReset = true ∧
      ({ idleWith [.releaseReset] with inReset := true, strap := 3#4 } : State).host = .releaseReset :: [] := by decide

theorem witness_width_change :
    step { idleWith [.releaseReset] with inReset := true, strap := 8#4 } =
      .next { State.reset with strap := 8#4, width := 8#4 } := by rfl

theorem witness_strap_while_busy :
    ({ full with host := [.driveStrap 1#4] } : State).host = .driveStrap 1#4 :: [] ∧ full.busy = true := by decide

theorem witness_abandon :
    full.busy = true ∧ ({ full with host := [.assertReset] } : State).host = .assertReset :: [] ∧
      ({ full with host := [.assertReset, .issue full.cmd] } : State).host = .assertReset :: [.issue full.cmd] ∧
      ({ full with host := [.assertReset, .driveStrap 1#4, .releaseReset] } : State).host =
        .assertReset :: [.driveStrap 1#4, .releaseReset] ∧
      ({ full with host := [.assertReset, .releaseReset] } : State).host = .assertReset :: .releaseReset :: [] := by decide

/-- A command in flight at the assertion, and a response that stands on an idle instance (log entry 6). -/
theorem test_assert_reset :
    step { full with host := [.assertReset, .driveStrap 1#4] } =
      .next { full with
        host := [.driveStrap 1#4], inReset := true, busy := false, cmd := Command.empty, response := none } ∧
    step { idleWith [.assertReset] with response := okR (.index 7) } = .next { idleWith [] with inReset := true } :=
  ⟨rfl, rfl⟩

theorem witness_issue :
    (idleWith [.issue full.cmd]).busy = false ∧ (idleWith [.issue full.cmd]).inReset = false ∧
      (idleWith [.issue full.cmd]).host = .issue full.cmd :: [] := by decide

theorem witness_issue_under_reset :
    ({ idleWith [.issue full.cmd] with inReset := true } : State).inReset = true ∧
      ({ idleWith [.issue full.cmd] with inReset := true } : State).host = .issue full.cmd :: [] := by decide

theorem witness_second_command :
    full.busy = true ∧ full.inReset = false ∧
      step { full with host := [.issue full.cmd] } =
        Spec.ok { full with host := [.issue full.cmd] } (.words [6, 1, 6, 1]) := ⟨by decide, by decide, rfl⟩

theorem witness_idle : (idleWith []).host = [] ∧ (idleWith []).busy = false := by decide

theorem witness_step_decodes :
    full.busy = true ∧ full.inReset = false ∧ decodeHeader full.idxw full.cmd.hdr = .ok (.encode 0 0) ∧
      full.host = [] := by decide

theorem witness_wide_header :
    (inst 4#4 { Command.empty with hdr := 2 ^ 67 }).busy = true ∧
      (inst 4#4 { Command.empty with hdr := 2 ^ 67 }).inReset = false ∧
      hostYields (inst 4#4 { Command.empty with hdr := 2 ^ 67 }).host = true ∧
      2 ^ (2 * 32 + 3) ≤ (inst 4#4 { Command.empty with hdr := 2 ^ 67 }).cmd.hdr := by decide

theorem witness_commandTyped : Spec.commandTyped (idleWith []) full.cmd := by
  refine ⟨.encode 0 0, by decide, fun _ => ?_⟩
  unfold Spec.operandsTyped Spec.byteStringTyped; decide

theorem witness_life_of_a_command :
    Spec.idle (idleWith [.issue full.cmd, .wait]) ∧ Spec.commandTyped (idleWith [.issue full.cmd, .wait]) full.cmd ∧
      (idleWith [.issue full.cmd, .wait]).host = .issue full.cmd :: .wait :: [] :=
  ⟨⟨by decide, by decide, by decide⟩, witness_commandTyped, by decide⟩

/-- A command that fails with `ERR_INDEX` is among those of the statement on what the next command sees. -/
theorem witness_failed_command_is_typed :
    Spec.idle (idleWith []) ∧ Spec.commandTyped (idleWith []) { Command.empty with hdr := 0x14, a := [0x61] } := by
  refine ⟨⟨by decide, by decide, by decide⟩, .wordat 2 0, by decide, fun _ => ?_⟩
  unfold Spec.operandsTyped Spec.byteStringTyped; decide

theorem witness_wellFormed : (Instr.firstdiv (2 ^ 32 - 1) 7).wellFormed 32 = true := by decide

theorem witness_header_in_format : 0x7FFFFFFF80000003D < 2 ^ (2 * 32 + 3) := by decide

theorem witness_header_fields : 31 < 2 ^ 5 ∧ 7 < 2 ^ 5 := by decide

theorem witness_response_value :
    (Payload.index 7).value < 2 ^ 32 ∧
    ({ State.reset with response := okR (.index 7) } : State).inv = true ∧
    State.reset.width.toNat ≤ State.reset.idxw ∧
    ({ State.reset with response := okR (.index 7) } : State).response =
      some { status := .ok, payload := some (.index 7) } := by decide

/-- The narrowest `IDXW` with a response standing. -/
def narrow (w : BitVec 4) (p : Payload) : State :=
  { inst w Command.empty with idxw := 5, busy := false, response := okR p }

/-- At `IDXW = 5`: the greatest word of width 4; and at width 8, where a word may not fit, the greatest index. -/
theorem witness_response_value_narrow :
    ((narrow 4#4 (.word 15)).inv = true ∧ (narrow 4#4 (.word 15)).width.toNat ≤ (narrow 4#4 (.word 15)).idxw) ∧
    ((narrow 8#4 (.index 31)).inv = true ∧ ∀ c, Payload.index 31 ≠ .word c) ∧
    ((narrow 8#4 (.words [255])).inv = true ∧ ∀ c, Payload.words [255] ≠ .word c) :=
  ⟨by decide, ⟨by decide, fun _ => by simp⟩, ⟨by decide, fun _ => by simp⟩⟩

theorem witness_assembled :
    (AsmLine.wordat [0x61] (-1)).assemble 32 =
      some { Command.empty with hdr := 0x7FFFFFFFC, a := [0x61] } := by decide

theorem witness_width_is_valid : 4 ∈ [1, 2, 4, 8] ∧ ([0xA7#8] : ByteString)[byteIndex 4 1]? = some 0xA7#8 := by decide

theorem witness_bit_of_word : 2 ∈ [1, 2, 4, 8] ∧ 7 < ([0xA7#8, 0x61#8] : ByteString).length * (8 / 2) ∧ 1 < 2 := by decide

theorem witness_status :
    full.inv = true ∧ full.cfgOk = true ∧
      Spec.operandsTyped full.idxw full.width.toNat (.wordat 4 0) full.cmd ∧
      exec (.wordat 4 0) full = Spec.err full .errIndex :=
  ⟨by decide, by decide, witness_validA.2.2, rfl⟩

theorem witness_frame : exec (.decode 3 5) full = Spec.ok full (.bytes [0x12, 0x30]) := rfl

/-- A memory that holds an operand and something else beyond it. -/
def beyond (x : List Byte) (m : Nat) : Byte := x.getD m 0xEE#8

theorem beyond_holds (x : List Byte) : Spec.holds (beyond x) x := by
  intro m hm
  simp [beyond, hm]

/-- Each clause on the results of the Codec, over a memory that goes on beyond the operand. -/
theorem witness_cells :
    full.inv = true ∧ full.cfgOk = true ∧
    (Spec.byteStringTyped full.idxw full.cmd.a ∧ Spec.holds (beyond full.cmd.a) full.cmd.a) ∧
    (Spec.wordSeqTyped full.idxw full.width.toNat full.cmd.ws ∧ Spec.holds (beyond full.cmd.ws) full.cmd.ws) ∧
    (Spec.operandsTyped full.idxw full.width.toNat (.encodeall 0 0) full.cmd ∧
      ∀ k x, full.cmd.sa[k]? = some x → Spec.holds (beyond (full.cmd.sa.getD k [])) x) ∧
    (Spec.operandsTyped full.idxw full.width.toNat (.decodeall 0 0) full.cmd ∧
      ∀ k ws, full.cmd.sw[k]? = some ws → Spec.holds (beyond (full.cmd.sw.getD k [])) ws) := by
  refine ⟨by decide, by decide, ⟨witness_validA.2.2, beyond_holds _⟩, ⟨witness_wordSeqTyped.2.2, beyond_holds _⟩,
    ⟨witness_encodeall_typed.2.2.1, fun k x h => ?_⟩, ⟨witness_decodeall_typed.2.2.1, fun k x h => ?_⟩⟩ <;>
    rw [List.getD_eq_getElem?_getD, h] <;> exact beyond_holds x

/-- A partial byte (S2): the cell beyond the three words does not enter the padding. -/
theorem test_cells_beyond_are_not_read :
    beyond [1, 2, 3] 3 = 0xEE#8 ∧ Spec.decodeCells 4 3 (beyond [1, 2, 3]) = [0x12, 0x30] ∧
      Spec.encodeCells 4 2 (beyond [0x12, 0x30]) = [1, 2, 3, 0] := by decide

/-- Both sides of the refusal statement: an operand outside the types, and one inside. -/
theorem witness_refused :
    exec (.decode 0 0) (inst 4#4 { Command.empty with ws := [16] }) = .refused .wordCellOutOfRange ∧
    exec (.decode 0 0) (inst 4#4 { Command.empty with ws := [15] }) =
      Spec.ok (inst 4#4 { Command.empty with ws := [15] }) (.bytes [0xF0]) := ⟨rfl, rfl⟩

/-- Two commands that differ in all that `WORDAT` does not use. -/
theorem witness_unused :
    (inst 4#4 { full.cmd with b := [], ws := [] }).width = full.width ∧
    (inst 4#4 { full.cmd with b := [], ws := [] }).idxw = full.idxw ∧
    (inst 4#4 { full.cmd with b := [], ws := [] }).cfgOk = full.cfgOk ∧
    Spec.sameUsed (.wordat 3 0) (.wordat 3 9) (inst 4#4 { full.cmd with b := [], ws := [] }).cmd full.cmd :=
  ⟨by decide, by decide, by decide, rfl, rfl⟩

end Sys2Proof.Tests
end

/-! PROOFS of the family 00_scope: the constants of a width, and which operations refuse which operands. -/

namespace Sys2Proof.Machine

open Sys2Proof.Spec

/-! ### The constants of a width (00_scope.md rule R7) -/

/-- The words of a byte fill it when the width divides 8. -/
theorem mul_wpb_of_dvd {w : Nat} (h : w ∣ 8) : w * wpb w = 8 := Nat.mul_div_cancel' h

/-- The mask of a width that fits a byte is not truncated by the byte. -/
theorem mask_toNat_of_le {w : Nat} (h : w ≤ 8) : (mask w).toNat = 2 ^ w - 1 := by
  have hpow : 2 ^ w ≤ 2 ^ 8 := Nat.pow_le_pow_right (by decide) h
  rw [mask, BitVec.toNat_ofNat, Nat.mod_eq_of_lt (by omega)]

/-- Settles O23: every valid width divides 8; the eight values are computed. -/
theorem widthConstants : Obligations.WidthConstants := by
  refine ⟨fun w hw => ?_, by decide⟩
  have hdvd : w ∣ 8 := (show ∀ v ∈ [1, 2, 4, 8], v ∣ 8 by decide) w hw
  exact ⟨rfl, mul_wpb_of_dvd hdvd, mask_toNat_of_le (Nat.le_of_dvd (by decide) hdvd)⟩

/-! ### The operand checks are the operand types (00_scope.md rule R9, 10_state.md rule R30) -/

theorem checkBytes_eq_none_iff_typed (idxw : Nat) (x : ByteString) :
    checkBytes idxw x = none ↔ byteStringTyped idxw x :=
  checkBytes_eq_none_iff idxw x

theorem checkWords_eq_none_iff_typed (idxw w : Nat) (ws : WordSeq) :
    checkWords idxw w ws = none ↔ wordSeqTyped idxw w ws :=
  checkWords_eq_none_iff idxw w ws

/-! ### What refuses -/

/-- The operation is refused, for whatever reason. -/
def Refuses (x : StepResult) : Prop := ∃ q, x = .refused q

@[simp] theorem not_refuses_respond (p : Payload) (s : State) : ¬ Refuses (respond p s) := by
  simp [Refuses, respond]

@[simp] theorem not_refuses_raiseError (e : Status) (s : State) : ¬ Refuses (raiseError e s) := by
  simp [Refuses, raiseError]

@[simp] theorem not_refuses_fault (q : Fault) : ¬ Refuses (.fault q) := by
  simp [Refuses]

/-- The validity test refuses nothing itself, and nothing is refused while `CFG_OK` is 0 (log entries 7, 8). -/
theorem refuses_onValid_iff {s : State} {body : StepResult} :
    Refuses (onValid s body) ↔ s.cfgOk = true ∧ Refuses body := by
  cases h : s.cfgOk
  · simp [h, Refuses]
  · simp [h]

/-- The operand test refuses exactly when the check fails, ahead of whatever the body would do. -/
theorem refuses_onOperand_iff {check : Option Refusal} {body : StepResult} :
    Refuses (onOperand check body) ↔ check ≠ none ∨ Refuses body := by
  cases check with
  | none => simp
  | some q => simp [Refuses]

/-- One operand tested before a body that never refuses: the shape of all operations but `FIRSTDIV`. -/
theorem refuses_guarded_iff {s : State} {check : Option Refusal} {body : StepResult} {typed : Prop}
    (hcheck : check = none ↔ typed) (hbody : ¬ Refuses body) :
    Refuses (onValid s (onOperand check body)) ↔ s.cfgOk = true ∧ ¬ typed := by
  simp [refuses_onValid_iff, refuses_onOperand_iff, hcheck, hbody]

theorem execEncode_refuses_iff (s : State) :
    Refuses (execEncode s) ↔ s.cfgOk = true ∧ ¬ byteStringTyped s.idxw s.cmd.a :=
  refuses_guarded_iff (checkBytes_eq_none_iff_typed _ _) (not_refuses_respond _ _)

theorem execDecode_refuses_iff (s : State) :
    Refuses (execDecode s) ↔ s.cfgOk = true ∧ ¬ wordSeqTyped s.idxw s.w s.cmd.ws :=
  refuses_guarded_iff (checkWords_eq_none_iff_typed _ _ _) (not_refuses_respond _ _)

theorem execEncodeall_refuses_iff (s : State) :
    Refuses (execEncodeall s) ↔
      s.cfgOk = true ∧ ¬ (s.cmd.sa.length ≤ 2 ^ s.idxw - 1 ∧ ∀ x ∈ s.cmd.sa, byteStringTyped s.idxw x) :=
  refuses_guarded_iff
    (by simp only [checkBatch_eq_none_iff, checkBytes_eq_none_iff_typed, kmax]) (not_refuses_respond _ _)

theorem execDecodeall_refuses_iff (s : State) :
    Refuses (execDecodeall s) ↔
      s.cfgOk = true ∧ ¬ (s.cmd.sw.length ≤ 2 ^ s.idxw - 1 ∧ ∀ ws ∈ s.cmd.sw, wordSeqTyped s.idxw s.w ws) :=
  refuses_guarded_iff
    (by simp only [checkBatch_eq_none_iff, checkWords_eq_none_iff_typed, kmax]) (not_refuses_respond _ _)

/-- `WORDAT`: past the operand test come a word, a fault or `ERR_INDEX`. -/
theorem execWordat_refuses_iff (i : Nat) (s : State) :
    Refuses (execWordat i s) ↔ s.cfgOk = true ∧ ¬ byteStringTyped s.idxw s.cmd.a := by
  refine refuses_guarded_iff (checkBytes_eq_none_iff_typed _ _) ?_
  by_cases hi : i < totalWords s.w s.cmd.a
  · cases hword : wordOf s.w s.cmd.a i <;> simp [hi]
  · simp [hi]

/-- `FIRSTDIV`: two operands are tested, and past the tests come an index or a fault. -/
theorem execFirstdiv_refuses_iff (f e : Nat) (s : State) :
    Refuses (execFirstdiv f e s) ↔
      s.cfgOk = true ∧ ¬ (byteStringTyped s.idxw s.cmd.a ∧ byteStringTyped s.idxw s.cmd.b) := by
  unfold execFirstdiv
  simp only [refuses_onValid_iff, refuses_onOperand_iff, ne_eq, checkBytes_eq_none_iff_typed, not_and_or]
  cases firstDiv s.w s.cmd.a s.cmd.b f e <;> simp

/-- The reserved codes take no operand and refuse nothing (30_encoding.md rule R74). -/
theorem not_refuses_execReserved6 (s : State) : ¬ Refuses (execReserved6 s) := by
  simp [execReserved6, refuses_onValid_iff]

theorem not_refuses_execReserved7 (s : State) : ¬ Refuses (execReserved7 s) := by
  simp [execReserved7, refuses_onValid_iff]

/-- Settles O51: operation by operation, the operand test is the only source of a refusal. -/
theorem refusedExactlyOutsideTheOperandTypes : Obligations.RefusedExactlyOutsideTheOperandTypes := by
  intro i s
  cases i with
  | encode => exact execEncode_refuses_iff s
  | decode => exact execDecode_refuses_iff s
  | encodeall => exact execEncodeall_refuses_iff s
  | decodeall => exact execDecodeall_refuses_iff s
  | wordat f => exact execWordat_refuses_iff f s
  | firstdiv f e => exact execFirstdiv_refuses_iff f e s
  | reserved6 => exact iff_of_false (not_refuses_execReserved6 s) (fun h => h.2 trivial)
  | reserved7 => exact iff_of_false (not_refuses_execReserved7 s) (fun h => h.2 trivial)

end Sys2Proof.Machine

/-! PROOFS of the family 10_state: how a command ends, what one step can do, and the invariant that every step keeps. -/

namespace Sys2Proof.Machine

open Sys2Proof.Spec

/-! ### The results are of the result types (00_scope.md rule R9, 10_state.md rule R30) -/

/-- A masked byte is a word of the width. -/
theorem and_mask_toNat_lt {w : Nat} (hw : w ≤ 8) (byte : Byte) : (byte &&& mask w).toNat < 2 ^ w := by
  have hle : (byte &&& mask w).toNat ≤ (mask w).toNat := by
    rw [BitVec.toNat_and]; exact Nat.and_le_right
  rw [mask_toNat_of_le hw] at hle
  have hpos := Nat.two_pow_pos w
  omega

theorem wordOf_toNat_lt {w i : Nat} {x : ByteString} {c : WordCell} (hw : w ≤ 8) (h : wordOf w x i = some c) :
    c.toNat < 2 ^ w := by
  unfold wordOf at h
  cases hm : memRead x (byteIndex w i) with
  | none => simp [hm] at h
  | some byte =>
    simp only [hm, Option.some.injEq] at h
    exact h ▸ and_mask_toNat_lt hw _

/-- The word sequence of a byte string within its limit is within its own, and its cells are words. -/
theorem checkWords_encodeBytes {idxw w : Nat} {x : ByteString} (hw : w = 1 ∨ w = 2 ∨ w = 4 ∨ w = 8)
    (h : checkBytes idxw x = none) : checkWords idxw w (encodeBytes w x) = none := by
  rw [checkBytes_eq_none_iff] at h
  rw [checkWords_eq_none_iff, encodeBytes_length, Nat.mul_comm]
  refine ⟨Nat.mul_le_mul_left _ h, fun c hc => ?_⟩
  obtain ⟨byte, -, hc⟩ := List.mem_flatMap.1 hc
  obtain ⟨k, -, rfl⟩ := List.mem_map.1 hc
  exact groupOf_lt hw byte k

/-- The byte string of a word sequence within its limit is within its own: `WPB * LMAX` words fill `LMAX` bytes. -/
theorem checkBytes_decodeWords {idxw w : Nat} {ws : WordSeq} (hw : w = 1 ∨ w = 2 ∨ w = 4 ∨ w = 8)
    (h : checkWords idxw w ws = none) : checkBytes idxw (decodeWords w ws) = none := by
  obtain ⟨hlen, -⟩ := (checkWords_eq_none_iff ..).1 h
  have hfill : wpb w * lmax idxw * w = 8 * lmax idxw := by
    have hdvd : w ∣ 8 := by rcases hw with rfl | rfl | rfl | rfl <;> decide
    rw [Nat.mul_right_comm, Nat.mul_comm (wpb w), mul_wpb_of_dvd hdvd]
  have hbits : ws.length * w ≤ 8 * lmax idxw := hfill ▸ Nat.mul_le_mul_right w hlen
  rw [checkBytes_eq_none_iff, decodeWords_length]
  omega

/-- A function that keeps elements within their limits keeps a batch within its limit. -/
theorem checkBatch_map {α β : Type} {idxw : Nat} {check : α → Option Refusal} {check' : β → Option Refusal}
    {f : α → β} {l : List α} (hf : ∀ x, check x = none → check' (f x) = none)
    (h : checkBatch idxw check l = none) : checkBatch idxw check' (l.map f) = none := by
  obtain ⟨hlen, hall⟩ := (checkBatch_eq_none_iff ..).1 h
  refine (checkBatch_eq_none_iff ..).2 ⟨by simpa using hlen, fun y hy => ?_⟩
  obtain ⟨x, hx, rfl⟩ := List.mem_map.1 hy
  exact hf x (hall x hx)

/-- `FIRSTDIV` has a result at every valid width, and it is at most the `end` field (42_comparator.md rule R129). -/
theorem firstDiv_eq_some_le {w : Nat} (hw : w = 1 ∨ w = 2 ∨ w = 4 ∨ w = 8) (a b : ByteString) (f e : Nat) :
    ∃ r, firstDiv w a b f e = some r ∧ r ≤ e := by
  have hend : effEnd w a b e ≤ e := Nat.min_le_left ..
  unfold firstDiv
  by_cases hfe : f = e
  · exact ⟨e, if_pos hfe, le_rfl⟩
  rw [if_neg hfe]
  rcases Nat.le_total f (effEnd w a b e) with hf | hf
  · have hmin : effEnd w a b e ≤ min (totalWords w a) (totalWords w b) := Nat.min_le_right ..
    obtain ⟨r, hr, -, hle, -, -⟩ := scanWords_spec (effEnd w a b e - f) f hw (by omega)
      (hmin.trans (Nat.min_le_left ..)) (hmin.trans (Nat.min_le_right ..))
    exact ⟨r, hr, hle.trans hend⟩
  · rw [Nat.sub_eq_zero_of_le hf]
    exact ⟨effEnd w a b e, rfl, hend⟩

/-! ### How a command ends (10_state.md rule R33, 60_exceptions.md rules R146, R150) -/

/-- The payload an operation hands back after its operand test, operation by operation. -/
inductive Returns (s : State) : Instr → Payload → Prop
  | encode {f e : Nat} : checkBytes s.idxw s.cmd.a = none →
      Returns s (.encode f e) (.words (encodeBytes s.w s.cmd.a))
  | decode {f e : Nat} : checkWords s.idxw s.w s.cmd.ws = none →
      Returns s (.decode f e) (.bytes (decodeWords s.w s.cmd.ws))
  | encodeall {f e : Nat} : checkBatch s.idxw (checkBytes s.idxw) s.cmd.sa = none →
      Returns s (.encodeall f e) (.wordSeqs (s.cmd.sa.map (encodeBytes s.w)))
  | decodeall {f e : Nat} : checkBatch s.idxw (checkWords s.idxw s.w) s.cmd.sw = none →
      Returns s (.decodeall f e) (.byteStrings (s.cmd.sw.map (decodeWords s.w)))
  | wordat {f e : Nat} {c : WordCell} : wordOf s.w s.cmd.a f = some c → Returns s (.wordat f e) (.word c)
  | firstdiv {f e r : Nat} : firstDiv s.w s.cmd.a s.cmd.b f e = some r → Returns s (.firstdiv f e) (.index r)

/-- The response of a completed operation: `ERR_CONFIG` with `CFG_OK` 0; with `CFG_OK` 1 a payload, or an error that is
not `ERR_CONFIG`. -/
inductive Answers (i : Instr) (s : State) : Response → Prop
  | invalid : s.cfgOk = false → Answers i s { status := .errConfig, payload := none }
  | ok {p : Payload} : s.cfgOk = true → Returns s i p → Answers i s { status := .ok, payload := some p }
  | error {e : Status} : s.cfgOk = true → e = .errIndex ∨ e = .errOp →
      Answers i s { status := e, payload := none }

/-- Every operation tests `CFG_OK` before anything else (60_exceptions.md rule R150). -/
theorem exec_eq_onValid (i : Instr) (s : State) : ∃ body, exec i s = onValid s body := by
  cases i <;> exact ⟨_, rfl⟩

theorem exec_of_invalid {i : Instr} {s : State} (h : s.cfgOk = false) :
    exec i s = .next (s.complete { status := .errConfig, payload := none }) := by
  obtain ⟨body, hbody⟩ := exec_eq_onValid i s
  rw [hbody, onValid_of_invalid h]

/-- With `CFG_OK` 1 an operation of one checked operand returns its payload: the shape of the Codec. -/
theorem answers_of_guarded {i : Instr} {s t : State} {check : Option Refusal} {p : Payload} (hc : s.cfgOk = true)
    (hp : check = none → Returns s i p) (h : onValid s (onOperand check (respond p s)) = .next t) :
    ∃ r, Answers i s r ∧ t = s.complete r := by
  rw [onValid_of_ok hc] at h
  obtain ⟨hcheck, hbody⟩ := onOperand_eq_next h
  exact ⟨_, .ok hc (hp hcheck), respond_eq_next_iff.1 hbody⟩

/-- With `CFG_OK` 1 an operation that raises an error of its own ends with that error. -/
theorem answers_of_raiseError {i : Instr} {s t : State} {e : Status} (hc : s.cfgOk = true)
    (he : e = .errIndex ∨ e = .errOp) (h : raiseError e s = .next t) : ∃ r, Answers i s r ∧ t = s.complete r :=
  ⟨_, .error hc he, raiseError_eq_next_iff.1 h⟩

/-- A next state of an operation is the completion of the command with one of its answers. -/
theorem exec_eq_next {i : Instr} {s t : State} (h : exec i s = .next t) :
    ∃ r, Answers i s r ∧ t = s.complete r := by
  cases hc : s.cfgOk with
  | false =>
    rw [exec_of_invalid hc] at h
    cases h
    exact ⟨_, .invalid hc, rfl⟩
  | true =>
    cases i with
    | encode => exact answers_of_guarded hc .encode h
    | decode => exact answers_of_guarded hc .decode h
    | encodeall => exact answers_of_guarded hc .encodeall h
    | decodeall => exact answers_of_guarded hc .decodeall h
    | wordat f e =>
      rw [exec, execWordat, onValid_of_ok hc] at h
      obtain ⟨-, hbody⟩ := onOperand_eq_next h
      split at hbody
      · cases hword : wordOf s.w s.cmd.a f with
        | none => simp [hword] at hbody
        | some c =>
          simp only [hword] at hbody
          exact ⟨_, .ok hc (.wordat hword), respond_eq_next_iff.1 hbody⟩
      · exact answers_of_raiseError hc (.inl rfl) hbody
    | firstdiv f e =>
      rw [exec, execFirstdiv, onValid_of_ok hc] at h
      obtain ⟨-, hbody⟩ := onOperand_eq_next (onOperand_eq_next h).2
      cases hdiv : firstDiv s.w s.cmd.a s.cmd.b f e with
      | none => simp [hdiv] at hbody
      | some r =>
        simp only [hdiv] at hbody
        exact ⟨_, .ok hc (.firstdiv hdiv), respond_eq_next_iff.1 hbody⟩
    | reserved6 => exact answers_of_raiseError hc (.inr rfl) ((onValid_of_ok hc).symm.trans h)
    | reserved7 => exact answers_of_raiseError hc (.inr rfl) ((onValid_of_ok hc).symm.trans h)

/-- A payload stands exactly with `OK` (10_state.md rule R32). -/
theorem Answers.payload_iff {i : Instr} {s : State} {r : Response} (h : Answers i s r) :
    r.payload.isSome = true ↔ r.status = .ok := by
  cases h with
  | invalid => simp
  | ok => simp
  | error _ he => rcases he with rfl | rfl <;> simp

/-- A payload is of the result types when the width is valid and the `end` field is an index. -/
theorem Returns.typed {i : Instr} {s : State} {p : Payload} (h : Returns s i p)
    (hw : s.w = 1 ∨ s.w = 2 ∨ s.w = 4 ∨ s.w = 8) (he : i.endIdx < 2 ^ s.idxw) : p.typed s.idxw s.w = true := by
  cases h with
  | encode ha => simp [Payload.typed, checkWords_encodeBytes hw ha]
  | decode hws => simp [Payload.typed, checkBytes_decodeWords hw hws]
  | encodeall hsa => simp [Payload.typed, checkBatch_map (fun _ => checkWords_encodeBytes hw) hsa]
  | decodeall hsw => simp [Payload.typed, checkBatch_map (fun _ => checkBytes_decodeWords hw) hsw]
  | wordat hword => simp [Payload.typed, wordOf_toNat_lt (by omega) hword]
  | @firstdiv f e r hdiv =>
    obtain ⟨r', hr', hle⟩ := firstDiv_eq_some_le hw s.cmd.a s.cmd.b f e
    obtain rfl : r' = r := Option.some.inj (hr'.symm.trans hdiv)
    simpa [Payload.typed] using hle.trans_lt he

/-- From a state with the invariant an answer is well formed. -/
theorem Answers.typed {i : Instr} {s : State} {r : Response} (h : Answers i s r) (hs : s.inv = true)
    (he : i.endIdx < 2 ^ s.idxw) : r.typed s.idxw s.w s.cfgOk = true := by
  cases h with
  | invalid hc => exact (Response.typed_error_iff ..).2 ⟨by decide, by simp [hc]⟩
  | ok hc hp => exact (Response.typed_ok_iff ..).2 ⟨hp.typed (width_cases_of_inv hs hc) he, hc⟩
  | error hc he => rcases he with rfl | rfl <;> exact (Response.typed_error_iff ..).2 ⟨by decide, by simp [hc]⟩

/-- Settles O49: the only next state an operation answers is the completion of the command. -/
theorem completionChangesOnlyTheResponse : Obligations.CompletionChangesOnlyTheResponse := by
  intro i s t h
  obtain ⟨r, hr, ht⟩ := exec_eq_next h
  exact ⟨r, ht, hr.payload_iff⟩

/-- Settles O46: the validity test stands before the body of every operation. -/
theorem invalidInstanceAnswersErrConfig : Obligations.InvalidInstanceAnswersErrConfig :=
  fun _ _ h => exec_of_invalid h

/-! ### No operation faults from a state with the invariant (20_memory.md rule R56) -/

theorem respond_ne_fault {p : Payload} {s : State} {q : Fault} : respond p s ≠ .fault q := nofun

theorem raiseError_ne_fault {e : Status} {s : State} {q : Fault} : raiseError e s ≠ .fault q := nofun

theorem onValid_ne_fault {s : State} {body : StepResult} {q : Fault} (h : s.cfgOk = true → body ≠ .fault q) :
    onValid s body ≠ .fault q := by
  cases hc : s.cfgOk with
  | false => simp [onValid_of_invalid hc]
  | true => rw [onValid_of_ok hc]; exact h hc

theorem onOperand_ne_fault {check : Option Refusal} {body : StepResult} {q : Fault} (h : body ≠ .fault q) :
    onOperand check body ≠ .fault q :=
  fun hf => h (onOperand_eq_fault hf).2

/-- `WORDAT` reads below the total word count only, and `FIRSTDIV` scans below both totals. -/
theorem exec_ne_fault {i : Instr} {s : State} {q : Fault} (hs : s.inv = true) : exec i s ≠ .fault q := by
  cases i with
  | encode => exact onValid_ne_fault fun _ => onOperand_ne_fault respond_ne_fault
  | decode => exact onValid_ne_fault fun _ => onOperand_ne_fault respond_ne_fault
  | encodeall => exact onValid_ne_fault fun _ => onOperand_ne_fault respond_ne_fault
  | decodeall => exact onValid_ne_fault fun _ => onOperand_ne_fault respond_ne_fault
  | wordat f =>
    refine onValid_ne_fault fun hc => onOperand_ne_fault ?_
    split
    · next hf => rw [wordOf_of_lt (width_cases_of_inv hs hc) hf]; exact respond_ne_fault
    · exact raiseError_ne_fault
  | firstdiv f e =>
    refine onValid_ne_fault fun hc => onOperand_ne_fault (onOperand_ne_fault ?_)
    obtain ⟨r, hr, -⟩ := firstDiv_eq_some_le (width_cases_of_inv hs hc) s.cmd.a s.cmd.b f e
    rw [hr]; exact respond_ne_fault
  | reserved6 => exact onValid_ne_fault fun _ => raiseError_ne_fault
  | reserved7 => exact onValid_ne_fault fun _ => raiseError_ne_fault

/-- A command with operands of the types completes: it neither faults nor is refused (10_state.md rule R33). -/
theorem exec_completes {i : Instr} {s : State} (hs : s.inv = true)
    (htyped : s.cfgOk = true → operandsTyped s.idxw s.width.toNat i s.cmd) :
    ∃ r, exec i s = .next (s.complete r) := by
  cases h : exec i s with
  | next t =>
    obtain ⟨r, -, rfl⟩ := exec_eq_next h
    exact ⟨r, rfl⟩
  | fault q => exact absurd h (exec_ne_fault hs)
  | refused q =>
    obtain ⟨hc, hnot⟩ := (refusedExactlyOutsideTheOperandTypes i s).1 ⟨q, h⟩
    exact absurd (htyped hc) hnot

/-! ### The fields of a decoded header (30_encoding.md rule R70) -/

@[simp] theorem instrOf_fromIdx (op : Fin 8) (f e : Nat) : (instrOf op f e).fromIdx = f := by
  fin_cases op <;> rfl

@[simp] theorem instrOf_endIdx (op : Fin 8) (f e : Nat) : (instrOf op f e).endIdx = e := by
  fin_cases op <;> rfl

/-- The decoder answers well-formed instructions only. -/
theorem wellFormed_of_decodeHeader {idxw hdr : Nat} {i : Instr} (h : decodeHeader idxw hdr = .ok i) :
    i.wellFormed idxw = true := by
  unfold decodeHeader at h
  split at h
  · cases h
    simp [Instr.wellFormed, fromField, endField, Nat.mod_lt]
  · cases h

/-! ### Whose turn a step is, and what it does (10_state.md rules R29, R33) -/

theorem blockTurn_iff (s : State) :
    s.blockTurn = true ↔ s.busy = true ∧ s.inReset = false ∧ hostYields s.host = true := by
  simp [State.blockTurn, and_assoc]

theorem blockTurn_of_not_busy {s : State} (h : s.busy = false) : s.blockTurn = false := by
  simp [State.blockTurn, h]

theorem step_of_blockTurn {s : State} {i : Instr} (hb : s.blockTurn = true)
    (hi : decodeHeader s.idxw s.cmd.hdr = .ok i) : step s = exec i s.afterWait := by
  simp [step, State.fetch, hb, hi]

theorem step_of_hostTurn {s : State} (hb : s.blockTurn = false) : step s = .next s.hostMove := by
  simp [step, hb]

theorem afterWait_of_nil {s : State} (h : s.host = []) : s.afterWait = s := by
  simp [State.afterWait, h]

theorem afterWait_of_issue {s : State} {c : Command} {rest : List HostEvent} (h : s.host = .issue c :: rest) :
    s.afterWait = s := by
  simp [State.afterWait, h]

theorem afterWait_of_wait {s : State} {rest : List HostEvent} (h : s.host = .wait :: rest) :
    s.afterWait = { s with host := rest } := by
  simp [State.afterWait, h]

theorem hostMove_of_issue {s : State} {c : Command} {rest : List HostEvent} (hr : s.inReset = false)
    (h : s.host = .issue c :: rest) : s.hostMove = State.accept { s with host := rest } c := by
  simp [State.hostMove, State.offer, h, hr]

/-- On the block's turn a next state is the completion of the command in flight with an answer of its instruction. -/
theorem step_eq_next_of_blockTurn {s t : State} (hb : s.blockTurn = true) (h : step s = .next t) :
    ∃ i r, decodeHeader s.idxw s.cmd.hdr = .ok i ∧ Answers i s.afterWait r ∧ t = s.afterWait.complete r := by
  rcases step_eq_next h with ⟨-, i, hi, hexec⟩ | ⟨hb', -⟩
  · obtain ⟨r, hr, ht⟩ := exec_eq_next hexec
    exact ⟨i, r, hi, hr, ht⟩
  · simp [hb] at hb'

/-! ### Every event keeps the invariant -/

/-- The invariant does not look at the strap or at the host's coming events. -/
theorem inv_with_inputs (s : State) (v : BitVec 4) (l : List HostEvent) :
    State.inv { s with strap := v, host := l } = s.inv := rfl

theorem inv_complete {s : State} {r : Response} (h : s.inv = true) (hreset : s.inReset = false)
    (hr : r.typed s.idxw s.w s.cfgOk = true) : (s.complete r).inv = true := by
  obtain ⟨hidxw, hcfg, -⟩ := s.inv_iff.1 h
  rw [State.inv_iff]
  simpa [hidxw, hcfg, hreset] using hcfg ▸ hr

theorem inv_accept {s : State} (c : Command) (h : s.inv = true) (hreset : s.inReset = false) :
    (s.accept c).inv = true := by
  obtain ⟨hidxw, hcfg, -⟩ := s.inv_iff.1 h
  rw [State.inv_iff]
  simp [hidxw, hcfg, hreset]

theorem inv_assertReset {s : State} (h : s.inv = true) : s.assertReset.inv = true := by
  obtain ⟨hidxw, hcfg, -⟩ := s.inv_iff.1 h
  rw [State.inv_iff]
  simp [hidxw, hcfg]

theorem inv_construct {s : State} (h : 5 ≤ s.idxw) : s.construct.inv = true := by
  rw [State.inv_iff]
  simp [h]

theorem inv_releaseReset {s : State} (h : s.inv = true) : s.releaseReset.inv = true := by
  rcases releaseReset_cases s with ⟨-, heq⟩ | ⟨-, heq⟩ <;> rw [heq]
  · exact inv_construct (s.inv_iff.1 h).1
  · exact h

theorem inv_offer {s : State} (c : Command) (h : s.inv = true) : (s.offer c).inv = true := by
  rcases offer_cases s c with ⟨-, heq⟩ | ⟨hreset, heq⟩ <;> rw [heq]
  · exact h
  · exact inv_accept c h hreset

theorem inv_hostMove {s : State} (h : s.inv = true) : s.hostMove.inv = true := by
  have hrest (v : BitVec 4) (l : List HostEvent) : State.inv { s with strap := v, host := l } = true :=
    (inv_with_inputs s v l).trans h
  rcases hostMove_cases s with
    ⟨-, heq⟩ | ⟨l, -, heq⟩ | ⟨v, l, -, heq⟩ | ⟨l, -, heq⟩ | ⟨l, -, heq⟩ | ⟨c, l, -, heq⟩ <;>
    rw [heq]
  · exact h
  · exact hrest s.strap l
  · exact hrest v l
  · exact inv_assertReset (hrest s.strap l)
  · exact inv_releaseReset (hrest s.strap l)
  · exact inv_offer c (hrest s.strap l)

theorem inv_afterWait {s : State} (h : s.inv = true) : s.afterWait.inv = true := by
  rcases afterWait_cases s with ⟨l, -, heq⟩ | heq <;> rw [heq]
  · exact (inv_with_inputs s s.strap l).trans h
  · exact h

/-- Settles O2: a completion happens out of reset and with a well-formed response, and every event of the host keeps the
invariant. -/
theorem stepKeepsTheInvariant : Obligations.StepKeepsTheInvariant := by
  intro s t hs h
  cases hb : s.blockTurn with
  | true =>
    obtain ⟨i, r, hi, hr, rfl⟩ := step_eq_next_of_blockTurn hb h
    obtain ⟨-, hreset, -⟩ := (blockTurn_iff s).1 hb
    obtain ⟨-, hend⟩ := Laws.HeaderInFormat.fields_lt (wellFormed_of_decodeHeader hi)
    have hs' := inv_afterWait hs
    exact inv_complete hs' (by simpa using hreset) (hr.typed hs' (by simpa using hend))
  | false =>
    rw [step_of_hostTurn hb] at h
    cases h
    exact inv_hostMove hs

/-! ### The configuration changes by construction only (70_reset_and_hazards.md rule R173) -/

/-- Only a release of an asserted reset changes the width or `CFG_OK`, and then the strap is sampled. -/
theorem hostMove_config (s : State) :
    s.hostMove.idxw = s.idxw ∧
      ((s.hostMove.width = s.width ∧ s.hostMove.cfgOk = s.cfgOk) ∨
        (s.inReset = true ∧ (∃ rest, s.host = .releaseReset :: rest) ∧ s.hostMove.width = s.strap)) := by
  rcases hostMove_cases s with
    ⟨-, heq⟩ | ⟨l, -, heq⟩ | ⟨v, l, -, heq⟩ | ⟨l, -, heq⟩ | ⟨l, hl, heq⟩ | ⟨c, l, -, heq⟩ <;>
    rw [heq]
  · simp
  · simp
  · simp
  · simp
  · rcases releaseReset_cases { s with host := l } with ⟨hreset, hrel⟩ | ⟨-, hrel⟩ <;> rw [hrel]
    · exact ⟨rfl, .inr ⟨hreset, ⟨l, hl⟩, rfl⟩⟩
    · simp
  · rcases offer_cases { s with host := l } c with ⟨-, hoff⟩ | ⟨-, hoff⟩ <;> rw [hoff] <;> simp

/-- Settles O4: a completion keeps the configuration, and of the host's events only construction changes it. -/
theorem widthChangesOnlyByConstruction : Obligations.WidthChangesOnlyByConstruction := by
  intro s t h
  cases hb : s.blockTurn with
  | true =>
    obtain ⟨i, r, -, -, rfl⟩ := step_eq_next_of_blockTurn hb h
    simp
  | false =>
    rw [step_of_hostTurn hb] at h
    cases h
    obtain ⟨hidxw, ⟨hwidth, hcfg⟩ | hconstruct⟩ := hostMove_config s
    · simp [hidxw, hwidth, hcfg]
    · exact ⟨hidxw, fun _ => hconstruct⟩

/-- Settles O1: the values of the reset state. -/
theorem resetIsAFreshInstance : Obligations.ResetIsAFreshInstance :=
  ⟨rfl, rfl, rfl, rfl, rfl, by decide, by decide, inv_construct (s := State.reset) (by decide)⟩

/-! ### The life of a command (10_state.md rules R29, R33; 60_exceptions.md rule R147) -/

/-- Settles O5: a strap event is the host's turn, whatever is in flight. -/
theorem drivingTheStrapChangesNothingElse : Obligations.DrivingTheStrapChangesNothingElse := by
  intro s v rest h
  rw [step_of_hostTurn (by simp [State.blockTurn, hostYields, h])]
  simp [State.hostMove, h]

/-- Settles O7: an idle block leaves the step to the host, and out of reset it accepts the command. -/
theorem issuePutsTheCommandInFlight : Obligations.IssuePutsTheCommandInFlight := by
  intro s c rest hbusy hreset h
  rw [step_of_hostTurn (blockTurn_of_not_busy hbusy), hostMove_of_issue hreset h]
  rfl

/-- Settles O10: without a command the step is the host's, and the host has no event. -/
theorem idleBlockDoesNothing : Obligations.IdleBlockDoesNothing := by
  intro s h hbusy
  rw [step_of_hostTurn (blockTurn_of_not_busy hbusy)]
  simp [State.hostMove, h]

/-- Settles O11: each of the three hosts yields, and only a `wait` is taken off the queue. -/
theorem stepRunsTheDecodedCommand : Obligations.StepRunsTheDecodedCommand := by
  intro s i hbusy hreset hi
  have hstep (hy : hostYields s.host = true) : step s = exec i s.afterWait :=
    step_of_blockTurn ((blockTurn_iff s).2 ⟨hbusy, hreset, hy⟩) hi
  refine ⟨fun h => ?_, fun c rest h => ?_, fun rest h => ?_⟩
  · rw [hstep (by rw [h]; rfl), afterWait_of_nil h]
  · rw [hstep (by rw [h]; rfl), afterWait_of_issue h]
  · rw [hstep (by rw [h]; rfl), afterWait_of_wait h]

/-- Settles O9: a host that issues yields, so the step is the completion of the command in flight. -/
theorem secondCommandWaitsForTheFirst : Obligations.SecondCommandWaitsForTheFirst := by
  intro s t c rest hbusy hreset hhost h
  have hb : s.blockTurn = true := (blockTurn_iff s).2 ⟨hbusy, hreset, by rw [hhost]; rfl⟩
  obtain ⟨i, r, -, -, rfl⟩ := step_eq_next_of_blockTurn hb h
  rw [afterWait_of_issue hhost]
  simp [hhost]

theorem run_succ_of_next {s t : State} (k : Nat) (h : step s = .next t) :
    Host.Core.run core (k + 1) s = Host.Core.run core k t := by
  have hcore : core.step s = .next t := h
  simp [Host.Core.run, hcore]

/-- A run goes on from the state it reached. -/
theorem run_add_of_next {m : Nat} {s t : State} (n : Nat) (h : Host.Core.run core m s = .next t) :
    Host.Core.run core (m + n) s = Host.Core.run core n t := by
  induction m generalizing s with
  | zero => cases h; rw [Nat.zero_add]
  | succ m ih =>
    cases hstep : core.step s with
    | next s' =>
      rw [run_succ_of_next m hstep] at h
      rw [Nat.succ_add, run_succ_of_next _ hstep, ih h]
    | fault q => simp [Host.Core.run, hstep] at h
    | refused q => simp [Host.Core.run, hstep] at h

/-- Settles O13: the issue puts the command in flight; with operands of the types the next step completes it. -/
theorem issuedCommandCompletes : Obligations.IssuedCommandCompletes := by
  rintro s c rest ⟨hinv, hbusy, hreset⟩ ⟨i, hi, htyped⟩ hhost
  have hissue : step s = .next (State.accept { s with host := .wait :: rest } c) :=
    issuePutsTheCommandInFlight s c _ hbusy hreset hhost
  have hflight : (State.accept { s with host := rest } c).inv = true := inv_accept c hinv hreset
  obtain ⟨r, hr⟩ := exec_completes hflight htyped
  obtain ⟨-, -, hwait⟩ :=
    stepRunsTheDecodedCommand (State.accept { s with host := .wait :: rest } c) i rfl hreset hi
  obtain ⟨-, -, hcmd, -⟩ := s.inv_iff.1 hinv
  have hback : (State.accept { s with host := rest } c).complete r = { s with host := rest, response := some r } := by
    simp [State.complete, State.accept, hbusy, hcmd hbusy]
  refine ⟨r, ?_⟩
  rw [run_succ_of_next 1 hissue, run_succ_of_next 0 ((hwait rest rfl).trans hr), hback]
  rfl

/-- Settles O14: the first command leaves its response alone behind, and issuing the second clears that. -/
theorem nextCommandIgnoresTheOneBefore : Obligations.NextCommandIgnoresTheOneBefore := by
  rintro s c d rest ⟨hinv, hbusy, hreset⟩ hc
  obtain ⟨r, hr⟩ := issuedCommandCompletes { s with host := .issue c :: .wait :: .issue d :: .wait :: rest } c
    (.issue d :: .wait :: rest) ⟨hinv, hbusy, hreset⟩ hc rfl
  have hissue (q : Option Response) :
      Host.Core.run core 2 { s with host := .issue d :: .wait :: rest, response := q } =
        Host.Core.run core 1 { s with host := .wait :: rest, busy := true, cmd := d, response := none } :=
    run_succ_of_next 1 (issuePutsTheCommandInFlight _ d _ hbusy hreset rfl)
  rw [run_add_of_next 2 hr]
  exact (hissue (some r)).trans (hissue s.response).symm

end Sys2Proof.Machine

/-! PROOFS of the family 20_memory: where a word lies in its byte, how the views of two widths nest, and that no operation
looks beyond its operand. -/

namespace Sys2Proof.Machine

open Sys2Proof.Spec

/-! ### The bit address of a word (20_memory.md rule R43) -/

/-- The groups of a byte fill it at every valid width. -/
theorem mul_wpb {w : Nat} (hw : w = 1 ∨ w = 2 ∨ w = 4 ∨ w = 8) : w * wpb w = 8 :=
  mul_wpb_of_dvd (by rcases hw with rfl | rfl | rfl | rfl <;> decide)

/-- A byte ends where its last group ends. -/
theorem mul_add_le_eight {w k : Nat} (hw : w = 1 ∨ w = 2 ∨ w = 4 ∨ w = 8) (hk : k < wpb w) : k * w + w ≤ 8 :=
  calc k * w + w = w * (k + 1) := by ring
    _ ≤ w * wpb w := Nat.mul_le_mul_left w hk
    _ = 8 := mul_wpb hw

theorem byteIndex_eq_div {w : Nat} (hw : w = 1 ∨ w = 2 ∨ w = 4 ∨ w = 8) (i : Nat) : byteIndex w i = i / wpb w := by
  have hpos : 0 < w := by omega
  rw [byteIndex, bitOffset, Nat.mul_comm, ← mul_wpb hw, Nat.mul_div_mul_left _ _ hpos]

theorem bitWithinByte_eq_mod_mul {w : Nat} (hw : w = 1 ∨ w = 2 ∨ w = 4 ∨ w = 8) (i : Nat) :
    bitWithinByte w i = i % wpb w * w := by
  rw [bitWithinByte, bitOffset, Nat.mul_comm i, ← mul_wpb hw, Nat.mul_mod_mul_left, Nat.mul_comm]

theorem bitWithinByte_add_le {w : Nat} (hw : w = 1 ∨ w = 2 ∨ w = 4 ∨ w = 8) (i : Nat) :
    bitWithinByte w i + w ≤ 8 := by
  rw [bitWithinByte_eq_mod_mul hw]
  exact mul_add_le_eight hw (Nat.mod_lt _ (wpb_pos hw))

/-- The subtractions in `shift(i)` do not underflow. -/
theorem shiftOf_add_bitWithinByte {w : Nat} (hw : w = 1 ∨ w = 2 ∨ w = 4 ∨ w = 8) (i : Nat) :
    shiftOf w i + w + bitWithinByte w i = 8 := by
  have hle := bitWithinByte_add_le hw i
  unfold shiftOf
  omega

/-- The word function picks group `i mod WPB` of the byte at `byteIndex(i)`. -/
theorem shiftOf_eq_groupShift {w : Nat} (hw : w = 1 ∨ w = 2 ∨ w = 4 ∨ w = 8) (i : Nat) :
    shiftOf w i = groupShift w (i % wpb w) := by
  rw [shiftOf, groupShift, bitWithinByte_eq_mod_mul hw]

theorem wordOf_of_memRead {w i : Nat} {x : ByteString} {byte : Byte} (hw : w = 1 ∨ w = 2 ∨ w = 4 ∨ w = 8)
    (h : memRead x (byteIndex w i) = some byte) : wordOf w x i = some (groupOf w byte (i % wpb w)) := by
  simp [wordOf, h, groupOf, shiftOf_eq_groupShift hw]

/-- A bit of the word at `i` is the bit of the byte that lies `shift(i)` above it. -/
theorem groupOf_mod_getLsbD {w : Nat} (hw : w = 1 ∨ w = 2 ∨ w = 4 ∨ w = 8) (byte : Byte) (i : Nat) {j : Nat}
    (hj : j < w) : (groupOf w byte (i % wpb w)).getLsbD j = byte.getLsbD (shiftOf w i + j) := by
  rw [groupOf_getLsbD hw _ _ (by omega), shiftOf_eq_groupShift hw]
  simp [hj]

/-- Settles O24: `8 = WIDTH * WPB` gives the second forms, and the word is the group that the address selects. -/
theorem bitAddressOfAWord : Obligations.BitAddressOfAWord := by
  intro w i hmem
  have hw : w = 1 ∨ w = 2 ∨ w = 4 ∨ w = 8 := by simpa using hmem
  have hbit := bitWithinByte_eq_mod_mul hw i
  have hle := bitWithinByte_add_le hw i
  refine ⟨rfl, rfl, byteIndex_eq_div hw i, rfl, hbit, ⟨i % wpb w, by rw [hbit, Nat.mul_comm]⟩, by omega,
    shiftOf_add_bitWithinByte hw i, fun x byte hbyte => ?_⟩
  exact ⟨_, wordOf_of_memRead hw hbyte, groupOf_lt hw _ _, fun j hj => groupOf_mod_getLsbD hw byte i hj⟩

/-- Settles O25: the bits of a word do not leave its byte, so bit `j` from the top lies `j` below the word's first bit. -/
theorem wordsAreTheBitstreamMostSignificantFirst : Obligations.WordsAreTheBitstreamMostSignificantFirst := by
  intro w x i j hmem hi hj
  have hw : w = 1 ∨ w = 2 ∨ w = 4 ∨ w = 8 := by simpa using hmem
  have hshift := shiftOf_add_bitWithinByte hw i
  have hread := memRead_of_lt (byteIndex_lt hw hi)
  have hbyte : (i * w + j) / 8 = byteIndex w i := by
    unfold bitWithinByte byteIndex bitOffset at *; omega
  have hbit : 7 - (i * w + j) % 8 = shiftOf w i + (w - 1 - j) := by
    unfold bitWithinByte bitOffset at *; omega
  refine ⟨_, x.getD (byteIndex w i) 0#8, wordOf_of_memRead hw hread, by rw [hbyte]; exact hread, ?_⟩
  rw [hbit]
  exact groupOf_mod_getLsbD hw _ i (by omega)

/-! ### The Codec's answers (40_codec.md rules R91, R94, R98, R99) -/

/-- An operation of one operand with `CFG_OK` 1, past its operand test. -/
theorem onValid_onOperand_none {s : State} {check : Option Refusal} {body : StepResult} (hc : s.cfgOk = true)
    (h : check = none) : onValid s (onOperand check body) = body := by
  rw [onValid_of_ok hc, h, onOperand_none]

theorem exec_encode_eq_ok {s : State} (f e : Nat) (hc : s.cfgOk = true) (ha : byteStringTyped s.idxw s.cmd.a) :
    exec (.encode f e) s = ok s (.words (encodeBytes s.w s.cmd.a)) :=
  onValid_onOperand_none hc ((checkBytes_eq_none_iff_typed ..).2 ha)

theorem exec_decode_eq_ok {s : State} (f e : Nat) (hc : s.cfgOk = true) (hws : wordSeqTyped s.idxw s.w s.cmd.ws) :
    exec (.decode f e) s = ok s (.bytes (decodeWords s.w s.cmd.ws)) :=
  onValid_onOperand_none hc ((checkWords_eq_none_iff_typed ..).2 hws)

theorem exec_encodeall_eq_ok {s : State} (f e : Nat) (hc : s.cfgOk = true)
    (hsa : operandsTyped s.idxw s.w (.encodeall f e) s.cmd) :
    exec (.encodeall f e) s = ok s (.wordSeqs (s.cmd.sa.map (encodeBytes s.w))) :=
  onValid_onOperand_none hc ((checkBatch_eq_none_iff ..).2
    ⟨hsa.1, fun x hx => (checkBytes_eq_none_iff_typed ..).2 (hsa.2 x hx)⟩)

theorem exec_decodeall_eq_ok {s : State} (f e : Nat) (hc : s.cfgOk = true)
    (hsw : operandsTyped s.idxw s.w (.decodeall f e) s.cmd) :
    exec (.decodeall f e) s = ok s (.byteStrings (s.cmd.sw.map (decodeWords s.w))) :=
  onValid_onOperand_none hc ((checkBatch_eq_none_iff ..).2
    ⟨hsw.1, fun ws hws => (checkWords_eq_none_iff_typed ..).2 (hsw.2 ws hws)⟩)

/-! ### Views of different width (20_memory.md rule R45) -/

/-- A group of twice the width is two neighbouring groups, the first above the second. -/
theorem groupOf_two_mul {w k : Nat} (hw : w = 1 ∨ w = 2 ∨ w = 4 ∨ w = 8)
    (hw2 : 2 * w = 1 ∨ 2 * w = 2 ∨ 2 * w = 4 ∨ 2 * w = 8) (hk : k < wpb (2 * w)) (byte : Byte) :
    groupOf (2 * w) byte k = (groupOf w byte (2 * k) <<< w) ||| groupOf w byte (2 * k + 1) := by
  have hfit := mul_add_le_eight hw2 hk
  have hlow : groupShift w (2 * k + 1) = groupShift (2 * w) k := by
    have h : (2 * k + 1) * w = k * (2 * w) + w := by ring
    unfold groupShift; omega
  have hhigh : groupShift w (2 * k) = groupShift (2 * w) k + w := by
    have h : 2 * k * w = k * (2 * w) := by ring
    unfold groupShift; omega
  refine BitVec.eq_of_getLsbD_eq fun j hj => ?_
  rw [BitVec.getLsbD_or, BitVec.getLsbD_shiftLeft, groupOf_getLsbD hw2 _ _ hj, groupOf_getLsbD hw _ _ hj,
    groupOf_getLsbD hw _ _ (by omega), hlow, hhigh]
  by_cases hjw : j < w
  · simp [hj, hjw, show j < 2 * w by omega]
  · have hsub : groupShift (2 * w) k + w + (j - w) = groupShift (2 * w) k + j := by omega
    have hiff : j - w < w ↔ j < 2 * w := by omega
    simp [hj, hjw, hsub, hiff]

/-- At half the width a byte has twice the words. -/
theorem wpb_two_mul {w : Nat} (hw : w = 1 ∨ w = 2 ∨ w = 4 ∨ w = 8)
    (hw2 : 2 * w = 1 ∨ 2 * w = 2 ∨ 2 * w = 4 ∨ 2 * w = 8) : wpb w = 2 * wpb (2 * w) := by
  refine Nat.eq_of_mul_eq_mul_left (show 0 < w by omega) ?_
  calc w * wpb w = 2 * w * wpb (2 * w) := (mul_wpb hw).trans (mul_wpb hw2).symm
    _ = w * (2 * wpb (2 * w)) := by ring

theorem encodeBytes_getD {w : Nat} (hw : 0 < wpb w) (x : ByteString) {j : Nat} (hj : j < x.length * wpb w) :
    (encodeBytes w x).getD j 0#8 = groupOf w (x.getD (j / wpb w) 0#8) (j % wpb w) := by
  rw [List.getD_eq_getElem?_getD, encodeBytes_getElem? hw x hj, Option.getD_some]

/-- Word `j` at twice the width is words `2j` and `2j + 1`: groups `2(j mod WPB)` and the next of the same byte. -/
theorem encodeBytes_two_mul_getD {w j : Nat} (hw : w = 1 ∨ w = 2 ∨ w = 4 ∨ w = 8)
    (hw2 : 2 * w = 1 ∨ 2 * w = 2 ∨ 2 * w = 4 ∨ 2 * w = 8) (x : ByteString) (hj : j < x.length * wpb (2 * w)) :
    (encodeBytes (2 * w) x).getD j 0#8 =
      ((encodeBytes w x).getD (2 * j) 0#8 <<< w) ||| (encodeBytes w x).getD (2 * j + 1) 0#8 := by
  have hq := wpb_pos hw2
  have htotal : x.length * wpb w = 2 * (x.length * wpb (2 * w)) := by rw [wpb_two_mul hw hw2]; ring
  rw [encodeBytes_getD hq x hj, encodeBytes_getD (wpb_pos hw) x (by omega),
    encodeBytes_getD (wpb_pos hw) x (by omega), wpb_two_mul hw hw2]
  have hdiv : (2 * j + 1) / (2 * wpb (2 * w)) = j / wpb (2 * w) := by
    rw [← Nat.div_div_eq_div_mul]; congr 1; omega
  have hmod : (2 * j + 1) % (2 * wpb (2 * w)) = 2 * (j % wpb (2 * w)) + 1 := by
    rw [Nat.mod_mul, show (2 * j + 1) / 2 = j by omega]; omega
  rw [hdiv, hmod, Nat.mul_div_mul_left _ _ (by decide), Nat.mul_mod_mul_left]
  exact groupOf_two_mul hw hw2 (Nat.mod_lt _ hq) _

/-- At width 8 a byte is its one group. -/
theorem groupOf_eight (byte : Byte) : groupOf 8 byte 0 = byte := by
  have hmask : mask 8 = BitVec.allOnes 8 := by decide
  rw [groupOf, hmask, BitVec.and_allOnes]
  exact BitVec.ushiftRight_zero byte

theorem byteGroups_eight (byte : Byte) : byteGroups 8 byte = [byte] :=
  congrArg (fun c => [c]) (groupOf_eight byte)

theorem encodeBytes_eight (x : ByteString) : encodeBytes 8 x = x := by
  induction x with
  | nil => rfl
  | cons byte x ih => rw [encodeBytes_cons, byteGroups_eight, ih, List.singleton_append]

/-- Settles O33: the nesting of the groups of one byte, carried to the words of `ENCODE`. -/
theorem viewsOfDifferentWidthNest : Obligations.ViewsOfDifferentWidthNest := by
  refine ⟨?_, ?_, by decide⟩
  · rintro s t f e ⟨hs, hsc, hsa⟩ ⟨ht, htc, hta⟩ hbytes hwidth
    have hws := width_cases_of_inv hs hsc
    have hwt := width_cases_of_inv ht htc
    refine ⟨_, _, exec_encode_eq_ok f e hsc hsa, exec_encode_eq_ok f e htc hta, fun j hj => ?_⟩
    rw [State.w, hwidth] at hwt
    rw [hwidth] at hj
    rw [State.w, hbytes, hwidth]
    exact encodeBytes_two_mul_getD hws hwt s.cmd.a hj
  · rintro s f e ⟨-, hc, ha⟩ hwidth
    have hw : s.w = 8 := by rw [State.w, hwidth]; rfl
    rw [exec_encode_eq_ok f e hc ha, hw, encodeBytes_eight]

/-! ### `WORDAT` reads one byte (20_memory.md rule R47) -/

theorem sameAnswer_onValid {s t : State} {x y : StepResult} (hc : t.cfgOk = s.cfgOk)
    (h : s.cfgOk = true → sameAnswer x y) : sameAnswer (onValid s x) (onValid t y) := by
  cases hs : s.cfgOk with
  | false => rw [onValid_of_invalid hs, onValid_of_invalid (hc.trans hs)]; rfl
  | true => rw [onValid_of_ok hs, onValid_of_ok (hc.trans hs)]; exact h hs

theorem sameAnswer_onOperand {check : Option Refusal} {x y : StepResult} (h : sameAnswer x y) :
    sameAnswer (onOperand check x) (onOperand check y) := by
  cases check with
  | none => exact h
  | some q => rfl

/-- The operand test of a byte string looks at its length alone. -/
theorem checkBytes_congr_length (idxw : Nat) {x y : ByteString} (h : y.length = x.length) :
    checkBytes idxw y = checkBytes idxw x := by
  rw [checkBytes, h]; rfl

theorem totalWords_congr_length (w : Nat) {x y : ByteString} (h : y.length = x.length) :
    totalWords w y = totalWords w x := by
  rw [totalWords, h]; rfl

/-- The word function looks at the byte at `byteIndex(i)` alone. -/
theorem wordOf_congr_byte {w i : Nat} {x y : ByteString} (h : y[byteIndex w i]? = x[byteIndex w i]?) :
    wordOf w y i = wordOf w x i := by
  simp only [wordOf, memRead, h]

/-- Settles O37: the tests look at lengths, and the word function, reached only in range, at one byte. -/
theorem wordatReadsOneByte : Obligations.WordatReadsOneByte := by
  intro s t i e _ _ hwidth hidxw hcfg hlen hbyte
  show sameAnswer (execWordat i s) (execWordat i t)
  have hw : t.w = s.w := congrArg BitVec.toNat hwidth
  refine sameAnswer_onValid hcfg fun _ => ?_
  rw [hidxw, hw, checkBytes_congr_length _ hlen, totalWords_congr_length _ hlen]
  refine sameAnswer_onOperand ?_
  by_cases hi : i < totalWords s.w s.cmd.a
  · rw [if_pos hi, if_pos hi, wordOf_congr_byte (hbyte hi)]
    cases wordOf s.w s.cmd.a i <;> rfl
  · rw [if_neg hi, if_neg hi]; rfl

/-! ### No operation looks beyond its operand (20_memory.md rule R56) -/

theorem encodeBytes_eq_encodeCells (w : Nat) {x : ByteString} {cells : Nat → Byte} (h : holds cells x) :
    encodeBytes w x = encodeCells w x.length cells :=
  encodeBytes_of_cells w h

theorem decodeWords_eq_decodeCells (w : Nat) {ws : WordSeq} {cells : Nat → Byte} (h : holds cells ws) :
    decodeWords w ws = decodeCells w ws.length cells :=
  List.map_congr_left fun m _ => decodeByte_of_cells w h m

/-- A function of each element of a batch, by the indices of the elements. -/
theorem map_eq_map_range {α β : Type} {l : List α} {g : α → β} {g' : Nat → β}
    (h : ∀ k x, l[k]? = some x → g x = g' k) : l.map g = (List.range l.length).map g' := by
  refine List.ext_getElem (by simp) fun k hk _ => ?_
  rw [List.length_map] at hk
  simpa using h k l[k] (List.getElem?_eq_getElem hk)

/-- An element-wise function that each element's memory determines is determined by the memories of the batch. -/
theorem map_eq_map_cells {β : Type} {l : List (List Byte)} {cells : Nat → Nat → Byte} {g : List Byte → β}
    {g' : Nat → (Nat → Byte) → β} (hg : ∀ {x c}, holds c x → g x = g' x.length c)
    (h : ∀ k x, l[k]? = some x → holds (cells k) x) :
    l.map g = (List.range l.length).map fun k => g' (l.getD k []).length (cells k) :=
  map_eq_map_range fun k x hx => by rw [hg (h k x hx), List.getD_eq_getElem?_getD, hx, Option.getD_some]

/-- Settles O50: the two operations that can fault read in range, and the Codec's lists are those of the cells. -/
theorem noReadOutsideAnOperand : Obligations.NoReadOutsideAnOperand := by
  refine ⟨fun _ _ _ hs => exec_ne_fault hs, fun s f e _ hc => ⟨?_, ?_, ?_, ?_⟩⟩
  · intro cells ha hcells
    rw [exec_encode_eq_ok f e hc ha, encodeBytes_eq_encodeCells _ hcells]
  · intro cells hws hcells
    rw [exec_decode_eq_ok f e hc hws, decodeWords_eq_decodeCells _ hcells]
  · intro cells hsa hcells
    rw [exec_encodeall_eq_ok f e hc hsa, map_eq_map_cells (encodeBytes_eq_encodeCells _) hcells]
  · intro cells hsw hcells
    rw [exec_decodeall_eq_ok f e hc hsw, map_eq_map_cells (decodeWords_eq_decodeCells _) hcells]

end Sys2Proof.Machine

/-! PROOFS of the family 30_encoding: the header word and its fields, the host's index patterns, the response word, the
lines of a program, and what an operation does not look at. -/

namespace Sys2Proof.Machine

open Sys2Proof.Spec

/-! ### The fields of a header word (30_encoding.md rules R70, R71) -/

theorem fromField_eq (idxw hdr : Nat) : fromField idxw hdr = hdr / 8 % 2 ^ idxw := by
  rw [fromField, Nat.shiftRight_eq_div_pow]

theorem endField_eq (idxw hdr : Nat) : endField idxw hdr = hdr / 8 / 2 ^ idxw % 2 ^ idxw := by
  rw [endField, Nat.add_comm, Nat.shiftRight_add, Nat.shiftRight_eq_div_pow, Nat.shiftRight_eq_div_pow]

/-- The header word with `end` and `from` as one number above the operation code. -/
theorem header_eq_indices_op {idxw f e op : Nat} (hf : f < 2 ^ idxw) (ho : op < 8) :
    (e <<< (idxw + 3)) ||| (f <<< 3) ||| op = (e * 2 ^ idxw + f) * 8 + op := by
  rw [Laws.HeaderInFormat.header_eq_sum hf ho, Nat.pow_add]; ring

/-- The header word of three fields decodes to the operation of its code, with both index fields whole. -/
theorem decodeHeader_of_fields {idxw f e : Nat} (hf : f < 2 ^ idxw) (he : e < 2 ^ idxw) (op : Fin 8) :
    decodeHeader idxw ((e <<< (idxw + 3)) ||| (f <<< 3) ||| op.val) = .ok (instrOf op f e) := by
  obtain ⟨hlt, hmod⟩ := Laws.HeaderInFormat.inFormat_of_fields hf he op.isLt
  have hop : opField ((e <<< (idxw + 3)) ||| (f <<< 3) ||| op.val) = op := Fin.ext hmod
  have hindices : ((e <<< (idxw + 3)) ||| (f <<< 3) ||| op.val) / 8 = e * 2 ^ idxw + f := by
    rw [header_eq_indices_op hf op.isLt]; omega
  have hend : (e * 2 ^ idxw + f) / 2 ^ idxw = e := by
    rw [Nat.mul_comm, Nat.mul_add_div (Nat.two_pow_pos _), Nat.div_eq_of_lt hf, Nat.add_zero]
  rw [decodeHeader, if_pos hlt, hop, fromField_eq, endField_eq, hindices, hend, Nat.mul_add_mod',
    Nat.mod_eq_of_lt hf, Nat.mod_eq_of_lt he]

/-- Settles O17: the eight rows of the table of operation codes. -/
theorem headerFieldsSelectTheOperation : Obligations.HeaderFieldsSelectTheOperation := by
  intro idxw f e hf he
  have hdec := decodeHeader_of_fields hf he
  exact ⟨fun op ho => (Laws.HeaderInFormat.inFormat_of_fields hf he ho).1,
    hdec 0, hdec 1, hdec 2, hdec 3, hdec 4, hdec 5, hdec 6, hdec 7⟩

/-! ### Decoding and encoding are inverse (30_encoding.md rules R70, R74, R76) -/

theorem opOf_lt (i : Instr) : opOf i < 8 := by
  cases i <;> simp [opOf]

/-- The operation code as the decoder reads it. -/
def opCode (i : Instr) : Fin 8 := ⟨opOf i, opOf_lt i⟩

theorem instrOf_opCode (i : Instr) : instrOf (opCode i) i.fromIdx i.endIdx = i := by
  cases i <;> rfl

@[simp] theorem opOf_instrOf (op : Fin 8) (f e : Nat) : opOf (instrOf op f e) = op.val := by
  fin_cases op <;> rfl

theorem encodeHeader_instrOf (idxw : Nat) (op : Fin 8) (f e : Nat) :
    encodeHeader idxw (instrOf op f e) = (e <<< (idxw + 3)) ||| (f <<< 3) ||| op.val := by
  simp [encodeHeader]

/-- Settles O15: an instruction is the one that its three fields select. -/
theorem decodeOfEncodeIsTheInstruction : Obligations.DecodeOfEncodeIsTheInstruction := by
  intro idxw i hi
  obtain ⟨hf, he⟩ := Laws.HeaderInFormat.fields_lt hi
  calc decodeHeader idxw (encodeHeader idxw i)
    _ = .ok (instrOf (opCode i) i.fromIdx i.endIdx) := decodeHeader_of_fields hf he (opCode i)
    _ = .ok i := by rw [instrOf_opCode]

/-- Above the operation code a header holds the two index fields and nothing else. -/
theorem indices_of_header {idxw hdr : Nat} (h : hdr < 2 ^ headerBits idxw) :
    endField idxw hdr * 2 ^ idxw + fromField idxw hdr = hdr / 8 := by
  have hbits : 2 ^ headerBits idxw = 2 ^ idxw * 2 ^ idxw * 8 := by
    rw [headerBits, Nat.two_mul, Nat.pow_add, Nat.pow_add]
  have hend : hdr / 8 / 2 ^ idxw < 2 ^ idxw :=
    Nat.div_lt_of_lt_mul (Nat.div_lt_of_lt_mul (by rw [Nat.mul_comm 8]; exact hbits ▸ h))
  rw [endField_eq, fromField_eq, Nat.mod_eq_of_lt hend, Nat.div_add_mod']

/-- A header is the encoding of the instruction it decodes to. -/
theorem encodeHeader_of_decodeHeader {idxw hdr : Nat} {i : Instr} (h : decodeHeader idxw hdr = .ok i) :
    encodeHeader idxw i = hdr := by
  unfold decodeHeader at h
  split at h
  · next hlt =>
    cases h
    have hf : fromField idxw hdr < 2 ^ idxw := Nat.mod_lt _ (Nat.two_pow_pos _)
    rw [encodeHeader_instrOf, header_eq_indices_op hf (opField hdr).isLt, indices_of_header hlt]
    exact Nat.div_add_mod' hdr 8
  · cases h

/-- Settles O16: decoding is total on headers, and both decoding and encoding undo the other. -/
theorem everyHeaderHasOneInstruction : Obligations.EveryHeaderHasOneInstruction := by
  intro idxw hdr hlt
  have hdec : decodeHeader idxw hdr = .ok (instrOf (opField hdr) (fromField idxw hdr) (endField idxw hdr)) :=
    if_pos hlt
  refine ⟨_, hdec, wellFormed_of_decodeHeader hdec, encodeHeader_of_decodeHeader hdec, fun j hj henc => ?_⟩
  have hdec' := decodeOfEncodeIsTheInstruction idxw j hj
  rw [henc, hdec] at hdec'
  exact (Except.ok.inj hdec').symm

/-- Settles O18: the nine headers are decoded. -/
theorem testVectorHeadersDecode : Obligations.TestVectorHeadersDecode := by
  unfold Obligations.TestVectorHeadersDecode
  decide

theorem decodeHeader_of_wide {idxw hdr : Nat} (h : 2 ^ headerBits idxw ≤ hdr) :
    decodeHeader idxw hdr = .error .headerTooWide :=
  if_neg (Nat.not_lt.2 h)

theorem step_of_undecodable {s : State} {q : DecodeError} (hb : s.blockTurn = true)
    (h : decodeHeader s.idxw s.cmd.hdr = .error q) : step s = .refused .headerOutsideFormat := by
  simp [step, State.fetch, hb, h]

/-- Settles O12: on the block's turn the header is decoded before anything of the command is performed. -/
theorem wideHeaderIsRefused : Obligations.WideHeaderIsRefused :=
  fun s hbusy hreset hyields hwide =>
    step_of_undecodable ((blockTurn_iff s).2 ⟨hbusy, hreset, hyields⟩) (decodeHeader_of_wide hwide)

/-! ### The limits in terms of `IDXW` (00_scope.md rules R8, R9) -/

/-- `8 * LMAX`, the most words an operand can have, is below `2^(IDXW-1)`. -/
theorem eight_mul_lmax_lt {idxw : Nat} (h : 5 ≤ idxw) : 8 * lmax idxw < 2 ^ (idxw - 1) := by
  have hpow : 2 ^ (idxw - 1) = 2 ^ (idxw - 4) * 8 := by
    rw [show idxw - 1 = idxw - 4 + 3 by omega, Nat.pow_add]
  have hpos := Nat.two_pow_pos (idxw - 4)
  unfold lmax
  omega

theorem wpb_mul_lmax_lt {idxw : Nat} (h : 5 ≤ idxw) (w : Nat) : wpb w * lmax idxw < 2 ^ (idxw - 1) :=
  (Nat.mul_le_mul_right _ (Nat.div_le_self 8 w)).trans_lt (eight_mul_lmax_lt h)

theorem lmax_lt {idxw : Nat} (h : 5 ≤ idxw) : lmax idxw < 2 ^ (idxw - 1) :=
  (Nat.le_mul_of_pos_left _ (by decide)).trans_lt (eight_mul_lmax_lt h)

theorem kmax_lt (idxw : Nat) : kmax idxw < 2 ^ idxw := Nat.sub_lt (Nat.two_pow_pos _) (by decide)

theorem totalWords_lt_of_typed {idxw w : Nat} {x : ByteString} (h : 5 ≤ idxw) (hx : byteStringTyped idxw x) :
    totalWords w x < 2 ^ (idxw - 1) :=
  calc totalWords w x ≤ lmax idxw * wpb w := Nat.mul_le_mul_right _ hx
    _ = wpb w * lmax idxw := Nat.mul_comm ..
    _ < 2 ^ (idxw - 1) := wpb_mul_lmax_lt h w

/-! ### A host's index (30_encoding.md rules R63, R81) -/

theorem hostIndex_neg {idxw n : Nat} (h1 : 1 ≤ n) (hn : n ≤ 2 ^ (idxw - 1)) :
    hostIndex idxw (-(n : Int)) = some (2 ^ idxw - n) := by
  have hneg : -(n : Int) < 0 := by omega
  have hrange : -(2 ^ (idxw - 1) : Int) ≤ -(n : Int) := neg_le_neg (by exact_mod_cast hn)
  rw [hostIndex, if_pos hneg, if_pos hrange, neg_neg, Int.toNat_natCast]

/-- The pattern of a host's index is an `IDXW`-bit value. -/
theorem hostIndex_lt {idxw n : Nat} {z : Int} (h : hostIndex idxw z = some n) : n < 2 ^ idxw := by
  have hpos := Nat.two_pow_pos idxw
  unfold hostIndex at h
  split at h
  · split at h
    · cases h; omega
    · cases h
  · split at h
    · next hlt => cases h; exact hlt
    · cases h

/-- Settles O19: a negative index is in the upper half of the range, and every total word count in the lower half. -/
theorem negativeIndexIsAboveEveryTotal : Obligations.NegativeIndexIsAboveEveryTotal := by
  intro idxw n hidxw h1 hn
  have hupper : 2 ^ (idxw - 1) ≤ 2 ^ idxw - n := by
    have hhalf := Nat.two_pow_pred_add_two_pow_pred (show 0 < idxw by omega)
    omega
  exact ⟨hostIndex_neg h1 hn, hupper, fun w x _ hx => (totalWords_lt_of_typed hidxw hx).trans_le hupper⟩

/-! ### The response word (30_encoding.md rule R78) -/

/-- A word carries an `OK` response exactly when its status bits are 0 and its value field is the payload's value. -/
theorem carriedBy_ok_iff {idxw word : Nat} {p : Payload} (hp : p.value < 2 ^ idxw) :
    Response.carriedBy idxw { status := .ok, payload := some p } word = true ↔
      word < 2 ^ (idxw + 2) ∧ word % 4 = 0 ∧ word / 4 % 2 ^ idxw = p.value := by
  simp only [Response.carriedBy, Bool.and_eq_true, Bool.or_eq_true, Bool.not_eq_true', decide_eq_true_eq,
    decide_eq_false_iff_not, hp, not_true_eq_false, false_or, and_assoc]
  rw [rspStatus, rspValue, Nat.shiftRight_eq_div_pow]
  rfl

theorem carriedBy_error_iff (idxw word : Nat) (e : Status) :
    Response.carriedBy idxw { status := e, payload := none } word = true ↔
      word < 2 ^ (idxw + 2) ∧ word % 4 = e.code := by
  simp only [Response.carriedBy, Bool.and_eq_true, decide_eq_true_eq, and_true]
  rfl

/-- A number of `n + 2` bits with low bits 0 and this upper part is the upper part shifted. -/
theorem low_bits_zero_iff_eq_shiftLeft {n word value : Nat} (hv : value < 2 ^ n) :
    word < 2 ^ (n + 2) ∧ word % 4 = 0 ∧ word / 4 % 2 ^ n = value ↔ word = value <<< 2 := by
  rw [Nat.shiftLeft_eq, Nat.pow_add]
  constructor
  · rintro ⟨hlt, hlow, hhigh⟩
    rw [Nat.mod_eq_of_lt (by omega)] at hhigh
    omega
  · rintro rfl
    rw [Nat.mul_div_cancel _ (by decide), Nat.mod_eq_of_lt hv]
    omega

/-- Settles O20: status bits 0 make the word its value field shifted; an error fixes its status bits alone. -/
theorem responseWordLayout : Obligations.ResponseWordLayout := by
  refine ⟨fun idxw word p hp => (carriedBy_ok_iff hp).trans (low_bits_zero_iff_eq_shiftLeft hp), fun p => ?_,
    carriedBy_error_iff, rfl, rfl, rfl, rfl⟩
  cases p <;> rfl

/-- The value of a payload of the result types is below `2^IDXW`, a word's where the word fits `IDXW` bits. -/
theorem Payload.value_lt_of_typed {idxw w : Nat} {p : Payload} (hidxw : 5 ≤ idxw)
    (hw : w ≤ idxw ∨ ∀ c, p ≠ .word c) (h : p.typed idxw w = true) : p.value < 2 ^ idxw := by
  have hhalf : 2 ^ (idxw - 1) ≤ 2 ^ idxw := Nat.pow_le_pow_right (by decide) (Nat.sub_le ..)
  cases p with
  | words ws =>
    obtain ⟨hlen, -⟩ := (checkWords_eq_none_iff ..).1 (Option.isNone_iff_eq_none.1 h)
    exact hlen.trans_lt ((wpb_mul_lmax_lt hidxw w).trans_le hhalf)
  | bytes x =>
    have hlen := (checkBytes_eq_none_iff ..).1 (Option.isNone_iff_eq_none.1 h)
    exact hlen.trans_lt ((lmax_lt hidxw).trans_le hhalf)
  | wordSeqs l =>
    obtain ⟨hlen, -⟩ := (checkBatch_eq_none_iff ..).1 (Option.isNone_iff_eq_none.1 h)
    exact hlen.trans_lt (kmax_lt idxw)
  | byteStrings l =>
    obtain ⟨hlen, -⟩ := (checkBatch_eq_none_iff ..).1 (Option.isNone_iff_eq_none.1 h)
    exact hlen.trans_lt (kmax_lt idxw)
  | word c =>
    have hle : w ≤ idxw := hw.resolve_right fun hne => hne c rfl
    exact (of_decide_eq_true h).trans_le (Nat.pow_le_pow_right (by decide) hle)
  | index n => exact of_decide_eq_true h

/-- Settles O21: the invariant keeps the payload of a response within the result types. -/
theorem responseValueFitsItsField : Obligations.ResponseValueFitsItsField := by
  intro s p hinv hw hresp
  obtain ⟨hidxw, -, -, -, -, htyped⟩ := s.inv_iff.1 hinv
  obtain ⟨hp, -⟩ := (Response.typed_ok_iff ..).1 (htyped _ hresp)
  exact p.value_lt_of_typed hidxw hw hp

/-! ### The lines of a program (30_encoding.md rules R80 to R82) -/

/-- A header whose index fields are patterns of the width decodes to its instruction. -/
theorem decodeHeader_encodeHeader {idxw : Nat} {i : Instr} (hf : i.fromIdx < 2 ^ idxw) (he : i.endIdx < 2 ^ idxw) :
    decodeHeader idxw (encodeHeader idxw i) = .ok i :=
  decodeOfEncodeIsTheInstruction idxw i (by simp [Instr.wellFormed, hf, he])

/-- Settles O22: a line's header encodes its operation with zeros or patterns of the width as index fields. -/
theorem assembledLineIsItsOperation : Obligations.AssembledLineIsItsOperation := by
  intro idxw l c h
  have h0 : 0 < 2 ^ idxw := Nat.two_pow_pos idxw
  cases l with
  | encode s => cases h; exact ⟨decodeHeader_encodeHeader h0 h0, rfl⟩
  | decode ws => cases h; exact ⟨decodeHeader_encodeHeader h0 h0, rfl⟩
  | encodeall x => cases h; exact ⟨decodeHeader_encodeHeader h0 h0, rfl⟩
  | decodeall x => cases h; exact ⟨decodeHeader_encodeHeader h0 h0, rfl⟩
  | wordat s i =>
    simp only [AsmLine.assemble] at h
    split at h
    · next n hi => cases h; exact ⟨n, hi, decodeHeader_encodeHeader (hostIndex_lt hi) h0, rfl⟩
    · cases h
  | firstdiv a b f e =>
    simp only [AsmLine.assemble] at h
    split at h
    · next m n hm hn =>
      cases h
      exact ⟨m, n, hm, hn, decodeHeader_encodeHeader (hostIndex_lt hm) (hostIndex_lt hn), rfl⟩
    · cases h

/-! ### What an operation does not look at (30_encoding.md rules R73, R74) -/

/-- Settles O47: a reserved code has no test but the one of `CFG_OK`. -/
theorem reservedCodesAnswerErrOp : Obligations.ReservedCodesAnswerErrOp :=
  fun _ _ _ hc => ⟨onValid_of_ok hc, onValid_of_ok hc⟩

/-- Two operations of one checked operand answer alike when their checks and their payloads are the same: the shape of
the Codec. -/
theorem sameAnswer_guarded {s t : State} {check check' : Option Refusal} {p p' : Payload} (hc : t.cfgOk = s.cfgOk)
    (hcheck : check = check') (hp : p = p') :
    sameAnswer (onValid s (onOperand check (respond p s))) (onValid t (onOperand check' (respond p' t))) := by
  subst hcheck hp
  exact sameAnswer_onValid hc fun _ => sameAnswer_onOperand rfl

section
variable {s t : State} (hw : s.w = t.w) (hidxw : s.idxw = t.idxw) (hc : t.cfgOk = s.cfgOk)
include hw hidxw hc

theorem sameAnswer_execWordat (f : Nat) (ha : s.cmd.a = t.cmd.a) :
    sameAnswer (execWordat f s) (execWordat f t) := by
  refine sameAnswer_onValid hc fun _ => ?_
  rw [hw, hidxw, ha]
  refine sameAnswer_onOperand ?_
  by_cases hf : f < totalWords t.w t.cmd.a
  · rw [if_pos hf, if_pos hf]
    cases wordOf t.w t.cmd.a f <;> rfl
  · rw [if_neg hf, if_neg hf]; rfl

theorem sameAnswer_execFirstdiv (f e : Nat) (ha : s.cmd.a = t.cmd.a) (hb : s.cmd.b = t.cmd.b) :
    sameAnswer (execFirstdiv f e s) (execFirstdiv f e t) := by
  refine sameAnswer_onValid hc fun _ => ?_
  rw [hw, hidxw, ha, hb]
  refine sameAnswer_onOperand (sameAnswer_onOperand ?_)
  cases firstDiv t.w t.cmd.a t.cmd.b f e <;> rfl

end

/-- Settles O52: an operation is a function of the width, `IDXW`, `CFG_OK` and what it uses of the command. -/
theorem unusedFieldsAndAttachmentsAreIgnored : Obligations.UnusedFieldsAndAttachmentsAreIgnored := by
  intro i j s t hwidth hidxw hcfg hused
  have hw : s.w = t.w := congrArg BitVec.toNat hwidth
  have hc : t.cfgOk = s.cfgOk := hcfg.symm
  cases i with
  | encode => cases j with
    | encode =>
      have ha : s.cmd.a = t.cmd.a := hused
      exact sameAnswer_guarded hc (by rw [hidxw, ha]) (by rw [hw, ha])
    | _ => exact hused.elim
  | decode => cases j with
    | decode =>
      have hws : s.cmd.ws = t.cmd.ws := hused
      exact sameAnswer_guarded hc (by rw [hidxw, hw, hws]) (by rw [hw, hws])
    | _ => exact hused.elim
  | encodeall => cases j with
    | encodeall =>
      have hsa : s.cmd.sa = t.cmd.sa := hused
      exact sameAnswer_guarded hc (by rw [hidxw, hsa]) (by rw [hw, hsa])
    | _ => exact hused.elim
  | decodeall => cases j with
    | decodeall =>
      have hsw : s.cmd.sw = t.cmd.sw := hused
      exact sameAnswer_guarded hc (by rw [hidxw, hw, hsw]) (by rw [hw, hsw])
    | _ => exact hused.elim
  | wordat f => cases j with
    | wordat g =>
      obtain ⟨rfl, ha⟩ := hused
      exact sameAnswer_execWordat hw hidxw hc f ha
    | _ => exact hused.elim
  | firstdiv f e => cases j with
    | firstdiv g h =>
      obtain ⟨rfl, rfl, ha, hb⟩ := hused
      exact sameAnswer_execFirstdiv hw hidxw hc f e ha hb
    | _ => exact hused.elim
  | reserved6 => cases j with
    | reserved6 => exact sameAnswer_onValid hc fun _ => rfl
    | _ => exact hused.elim
  | reserved7 => cases j with
    | reserved7 => exact sameAnswer_onValid hc fun _ => rfl
    | _ => exact hused.elim

end Sys2Proof.Machine

/-! PROOFS of the family 40_codec: the answers of the four operations, that `ENCODE` distributes over concatenation, and
the two round trips. -/

namespace Sys2Proof.Machine

open Sys2Proof.Spec

/-! ### The answers element by element (40_codec.md rules R91, R94, R95) -/

/-- Settles O26: word `j` of an encoded byte string is group `j mod WPB` of byte `j div WPB`. -/
theorem encodeAnswersTheWordSequence : Obligations.EncodeAnswersTheWordSequence := by
  rintro s f e ⟨hs, hc, ha⟩
  have hw := width_cases_of_inv hs hc
  refine ⟨_, exec_encode_eq_ok f e hc ha, encodeBytes_length .., fun j hj => ?_⟩
  rw [encodeBytes_length] at hj
  exact encodeBytes_getElem? (wpb_pos hw) s.cmd.a hj

/-- Settles O27: group `k` of byte `m` of a decoded word sequence is word `m*WPB + k`, zero where there is none. -/
theorem decodeAnswersTheByteString : Obligations.DecodeAnswersTheByteString := by
  intro s f e hs hc hws
  have hw := width_cases_of_inv hs hc
  refine ⟨_, exec_decode_eq_ok f e hc hws, decodeWords_length .., fun m k hm hk => ?_⟩
  rw [decodeWords_getD hm]
  exact groupOf_decodeByte hw hws.2 hk

/-! ### The batch forms (40_codec.md rules R98 to R100) -/

/-- Settles O28: a batch answers the map of what `ENCODE` answers on an element, and each element is of the types. -/
theorem encodeallIsEncodeOfEachElement : Obligations.EncodeallIsEncodeOfEachElement := by
  intro s f e _ hc hsa
  obtain ⟨hcount, helems⟩ := hsa
  refine ⟨_, exec_encodeall_eq_ok f e hc ⟨hcount, helems⟩, List.length_map .., fun k x hx => ?_⟩
  refine ⟨encodeBytes s.w x, by rw [List.getElem?_map, hx, Option.map_some], ?_⟩
  exact exec_encode_eq_ok (s := withA s x) f e hc (helems x (List.mem_of_getElem? hx))

/-- Settles O29: a batch answers the map of what `DECODE` answers on an element, and each element is of the types. -/
theorem decodeallIsDecodeOfEachElement : Obligations.DecodeallIsDecodeOfEachElement := by
  intro s f e _ hc hsw
  obtain ⟨hcount, helems⟩ := hsw
  refine ⟨_, exec_decodeall_eq_ok f e hc ⟨hcount, helems⟩, List.length_map .., fun k ws hws => ?_⟩
  refine ⟨decodeWords s.w ws, by rw [List.getElem?_map, hws, Option.map_some], ?_⟩
  exact exec_decode_eq_ok (s := withWS s ws) f e hc (helems ws (List.mem_of_getElem? hws))

/-! ### Concatenation (40_codec.md rule R92) -/

/-- Each byte's words depend on that byte alone. -/
theorem encodeBytes_append (w : Nat) (x y : ByteString) :
    encodeBytes w (x ++ y) = encodeBytes w x ++ encodeBytes w y :=
  List.flatMap_append

/-- Both parts of a byte string of the types are of the types. -/
theorem byteStringTyped_of_append {idxw : Nat} {x y : ByteString} (h : byteStringTyped idxw (x ++ y)) :
    byteStringTyped idxw x ∧ byteStringTyped idxw y := by
  unfold byteStringTyped at *
  rw [List.length_append] at h
  omega

/-- Settles O30: all three byte strings are of the types, and encoding distributes over their concatenation. -/
theorem encodeDistributesOverConcatenation : Obligations.EncodeDistributesOverConcatenation := by
  intro s x y f e _ hc hxy
  obtain ⟨hx, hy⟩ := byteStringTyped_of_append hxy
  have hcat := exec_encode_eq_ok (s := withA s (x ++ y)) f e hc hxy
  rw [show (withA s (x ++ y)).cmd.a = x ++ y from rfl, encodeBytes_append] at hcat
  exact ⟨_, _, exec_encode_eq_ok (s := withA s x) f e hc hx, exec_encode_eq_ok (s := withA s y) f e hc hy, hcat,
    encodeBytes_length .., encodeBytes_length ..⟩

/-! ### The round trips (40_codec.md rules R96, R97) -/

section
variable {w : Nat} (hw : w = 1 ∨ w = 2 ∨ w = 4 ∨ w = 8)
include hw

/-- The words of a byte string fill whole bytes: nothing is padded. -/
theorem decodeWords_encodeBytes_length (x : ByteString) : (decodeWords w (encodeBytes w x)).length = x.length := by
  rw [decodeWords_length, encodeBytes_length, Nat.mul_assoc, Nat.mul_comm (wpb w), mul_wpb hw]
  omega

/-- Word `m*WPB + k` of an encoded byte string is group `k` of byte `m`. -/
theorem encodeBytes_getD_mul_add {x : ByteString} {m k : Nat} (hm : m < x.length) (hk : k < wpb w) :
    (encodeBytes w x).getD (m * wpb w + k) 0#8 = groupOf w (x.getD m 0#8) k := by
  have hpos := wpb_pos hw
  have hj : m * wpb w + k < x.length * wpb w :=
    calc m * wpb w + k < (m + 1) * wpb w := by rw [Nat.succ_mul]; omega
      _ ≤ x.length * wpb w := Nat.mul_le_mul_right _ hm
  rw [encodeBytes_getD hpos x hj, Nat.mul_comm, Nat.mul_add_div hpos, Nat.mul_add_mod, Nat.div_eq_of_lt hk,
    Nat.mod_eq_of_lt hk, Nat.add_zero]

/-- The cells of an encoded byte string are words of the width. -/
theorem encodeBytes_cells_lt (x : ByteString) : ∀ c ∈ encodeBytes w x, c.toNat < 2 ^ w := by
  intro c hc
  obtain ⟨byte, -, hc⟩ := List.mem_flatMap.1 hc
  obtain ⟨k, -, rfl⟩ := List.mem_map.1 hc
  exact groupOf_lt hw byte k

/-- The round-trip law: each byte is rebuilt with the groups it was cut into. -/
theorem decodeWords_encodeBytes (x : ByteString) : decodeWords w (encodeBytes w x) = x := by
  have hlen := decodeWords_encodeBytes_length hw x
  refine List.ext_getElem hlen fun m hm hx => ?_
  rw [← List.getD_eq_getElem _ 0#8 hm, ← List.getD_eq_getElem _ 0#8 hx, decodeWords_getD hm]
  refine byte_ext_groups hw fun k hk => ?_
  rw [groupOf_decodeByte hw (encodeBytes_cells_lt hw x) hk, encodeBytes_getD_mul_add hw hx hk]

/-- The bytes of `n` words hold the next multiple of `WPB` words. -/
theorem decodedBytes_mul_wpb (n : Nat) :
    (n * w + 7) / 8 * wpb w = n + (wpb w - n % wpb w) % wpb w := by
  rcases hw with rfl | rfl | rfl | rfl <;> simp only [wpb] <;> omega

/-- The converse law at one index: the word of the place, zero beyond the last word. -/
theorem encodeBytes_decodeWords_getD {ws : WordSeq} (hc : ∀ c ∈ ws, c.toNat < 2 ^ w) {j : Nat}
    (hj : j < (decodeWords w ws).length * wpb w) :
    (encodeBytes w (decodeWords w ws)).getD j 0#8 = ws.getD j 0#8 := by
  have hpos := wpb_pos hw
  rw [encodeBytes_getD hpos _ hj, decodeWords_getD (Nat.div_lt_of_lt_mul (Nat.mul_comm _ _ ▸ hj)),
    groupOf_decodeByte hw hc (Nat.mod_lt _ hpos), Nat.div_add_mod']

/-- The converse law: the words, and the padding of the last byte read back as zero words. -/
theorem encodeBytes_decodeWords {ws : WordSeq} (hc : ∀ c ∈ ws, c.toNat < 2 ^ w) :
    encodeBytes w (decodeWords w ws) = ws ++ List.replicate ((wpb w - ws.length % wpb w) % wpb w) 0#8 := by
  refine List.ext_getElem ?_ fun j hj hj' => ?_
  · rw [encodeBytes_length, decodeWords_length, decodedBytes_mul_wpb hw, List.length_append, List.length_replicate]
  rw [← List.getD_eq_getElem _ 0#8 hj, ← List.getD_eq_getElem _ 0#8 hj']
  rw [encodeBytes_length] at hj
  rw [encodeBytes_decodeWords_getD hw hc hj]
  by_cases hin : j < ws.length
  · rw [List.getD_append _ _ _ _ hin]
  · have hout : ws.length ≤ j := by omega
    rw [List.getD_append_right _ _ _ _ hout, List.getD_eq_default _ _ hout,
      List.getD_eq_getElem?_getD, List.getElem?_getD_replicate_default_eq]

end

/-- Settles O31: the words that `ENCODE` answers are of the types, and decoding them gives the bytes. -/
theorem decodeOfEncodeIsTheByteString : Obligations.DecodeOfEncodeIsTheByteString := by
  rintro s f e ⟨hs, hc, ha⟩
  have hw := width_cases_of_inv hs hc
  refine ⟨_, exec_encode_eq_ok f e hc ha, fun t g h _ htc hwidth hidxw hws => ?_⟩
  have htw : t.w = s.w := congrArg BitVec.toNat hwidth
  have htyped : wordSeqTyped t.idxw t.w t.cmd.ws := by
    rw [hidxw, htw, hws, ← checkWords_eq_none_iff_typed]
    exact checkWords_encodeBytes hw ((checkBytes_eq_none_iff_typed ..).2 ha)
  rw [exec_decode_eq_ok g h htc htyped, htw, hws, decodeWords_encodeBytes hw]

/-- Settles O32: the bytes that `DECODE` answers are of the types, and encoding them gives the padded words. -/
theorem encodeOfDecodeAppendsZeroWords : Obligations.EncodeOfDecodeAppendsZeroWords := by
  intro s f e hs hc hws
  have hw := width_cases_of_inv hs hc
  refine ⟨_, exec_decode_eq_ok f e hc hws, fun t g h _ htc hwidth hidxw ha => ?_⟩
  have htw : t.w = s.w := congrArg BitVec.toNat hwidth
  have htyped : byteStringTyped t.idxw t.cmd.a := by
    rw [hidxw, ha, ← checkBytes_eq_none_iff_typed]
    exact checkBytes_decodeWords hw ((checkWords_eq_none_iff_typed ..).2 hws)
  rw [exec_encode_eq_ok g h htc htyped, htw, ha, encodeBytes_decodeWords hw hws.2]
  rfl

end Sys2Proof.Machine

/-! PROOFS of the family 41_accessor: what `WORDAT` answers inside and outside its bound, and that it agrees with
`ENCODE`. -/

namespace Sys2Proof.Machine

open Sys2Proof.Spec

/-! ### The two branches of the bounds test (41_accessor.md rules R110, R112) -/

theorem exec_wordat_eq_ok {s : State} {i : Nat} {c : WordCell} (e : Nat) (hc : s.cfgOk = true)
    (ha : byteStringTyped s.idxw s.cmd.a) (hi : i < totalWords s.w s.cmd.a) (hword : wordOf s.w s.cmd.a i = some c) :
    exec (.wordat i e) s = ok s (.word c) := by
  refine (onValid_onOperand_none hc ((checkBytes_eq_none_iff_typed ..).2 ha)).trans ?_
  rw [if_pos hi, hword]
  rfl

theorem exec_wordat_eq_err {s : State} {i : Nat} (e : Nat) (hc : s.cfgOk = true)
    (ha : byteStringTyped s.idxw s.cmd.a) (hi : totalWords s.w s.cmd.a ≤ i) :
    exec (.wordat i e) s = err s .errIndex :=
  (onValid_onOperand_none hc ((checkBytes_eq_none_iff_typed ..).2 ha)).trans (if_neg hi.not_gt)

/-- Settles O34: below the total the word function has the value of rule R111. -/
theorem wordatAnswersTheWord : Obligations.WordatAnswersTheWord := by
  rintro s i e ⟨hs, hc, ha⟩ hi
  exact exec_wordat_eq_ok e hc ha hi (wordOf_of_lt (width_cases_of_inv hs hc) hi)

/-! ### Indices out of range (41_accessor.md rule R112, 30_encoding.md rule R63) -/

/-- A negative number with a pattern is no further below zero than the width allows. -/
theorem le_two_pow_of_hostIndex_neg {idxw n i : Nat} (h1 : 1 ≤ n) (h : hostIndex idxw (-(n : Int)) = some i) :
    n ≤ 2 ^ (idxw - 1) := by
  by_contra hn
  have hneg : -(n : Int) < 0 := by omega
  have hrange : ¬ -(2 ^ (idxw - 1) : Int) ≤ -(n : Int) := fun hle => hn (by exact_mod_cast neg_le_neg_iff.1 hle)
  rw [hostIndex, if_pos hneg, if_neg hrange] at h
  cases h

/-- The pattern of a negative host index is in the upper half of the range. -/
theorem two_pow_le_of_hostIndex_neg {idxw n i : Nat} (hidxw : 5 ≤ idxw) (h1 : 1 ≤ n)
    (h : hostIndex idxw (-(n : Int)) = some i) : 2 ^ (idxw - 1) ≤ i := by
  obtain ⟨hpattern, hupper, -⟩ :=
    negativeIndexIsAboveEveryTotal idxw n hidxw h1 (le_two_pow_of_hostIndex_neg h1 h)
  cases hpattern.symm.trans h
  exact hupper

/-- Settles O35: an empty byte string has no words, and a negative index is a pattern above every total. -/
theorem wordatFailsOutOfRange : Obligations.WordatFailsOutOfRange := by
  refine ⟨?_, ?_, ?_⟩
  · rintro s i e ⟨-, hc, ha⟩ hi
    exact exec_wordat_eq_err e hc ha hi
  · rintro s i e ⟨-, hc, ha⟩ hempty
    have htotal : totalWords s.w s.cmd.a = 0 := by rw [hempty, totalWords, List.length_nil, Nat.zero_mul]
    exact exec_wordat_eq_err e hc ha (htotal ▸ i.zero_le)
  · rintro s n i e ⟨hs, hc, ha⟩ h1 hneg
    obtain ⟨hidxw, -⟩ := s.inv_iff.1 hs
    have htotal : totalWords s.w s.cmd.a < 2 ^ (s.idxw - 1) := totalWords_lt_of_typed hidxw ha
    exact exec_wordat_eq_err e hc ha (htotal.le.trans (two_pow_le_of_hostIndex_neg hidxw h1 hneg))

/-! ### `WORDAT` and `ENCODE` (41_accessor.md rule R113) -/

/-- The word function is the word sequence at the index: word `i` is group `i mod WPB` of byte `i div WPB`. -/
theorem encodeBytes_getElem?_eq_wordOf {w i : Nat} {x : ByteString} (hw : w = 1 ∨ w = 2 ∨ w = 4 ∨ w = 8)
    (hi : i < totalWords w x) : (encodeBytes w x)[i]? = wordOf w x i := by
  rw [encodeBytes_getElem? (wpb_pos hw) x hi, wordOf_of_memRead hw (memRead_of_lt (byteIndex_lt hw hi)),
    byteIndex_eq_div hw]

/-- Settles O36: both answers are the word function at the index. -/
theorem wordatIsEncodeAtTheIndex : Obligations.WordatIsEncodeAtTheIndex := by
  rintro s f e ⟨hs, hc, ha⟩
  have hw := width_cases_of_inv hs hc
  refine ⟨_, exec_encode_eq_ok f e hc ha, fun i g hi => ?_⟩
  have hword := wordOf_of_lt hw hi
  exact ⟨_, (encodeBytes_getElem?_eq_wordOf hw hi).trans hword, exec_wordat_eq_ok g hc ha hi hword⟩

end Sys2Proof.Machine

/-! PROOFS of the family 42_comparator: what `FIRSTDIV` answers in each case of `from` and `end`, and that the fast scan
answers the same. -/

namespace Sys2Proof.Machine

open Sys2Proof.Spec

/-! ### The first failure of a property (42_comparator.md rules R121, R123) -/

/-- `r` is the first index of `[i, eff)` at which `p` fails, and `eff` if it fails at none. -/
structure FirstFailure (p : Nat → Prop) (i eff r : Nat) : Prop where
  start_le : i ≤ r
  le_end : r ≤ eff
  before : ∀ j, i ≤ j → j < r → p j
  fails : r < eff → ¬ p r

namespace FirstFailure

variable {p q : Nat → Prop} {i k eff r r' : Nat}

theorem le_of (h : FirstFailure p i eff r) (h' : FirstFailure p i eff r') : r ≤ r' := by
  by_contra hlt
  have hr' : r' < r := Nat.lt_of_not_le hlt
  exact h'.fails (hr'.trans_le h.le_end) (h.before r' h'.start_le hr')

theorem unique (h : FirstFailure p i eff r) (h' : FirstFailure p i eff r') : r = r' :=
  Nat.le_antisymm (h.le_of h') (h'.le_of h)

theorem congr (h : FirstFailure p i eff r) (hpq : ∀ j, j < eff → (p j ↔ q j)) : FirstFailure q i eff r where
  start_le := h.start_le
  le_end := h.le_end
  before j hij hjr := (hpq j (hjr.trans_le h.le_end)).1 (h.before j hij hjr)
  fails hr := mt (hpq r hr).2 (h.fails hr)

/-- Where `p` holds throughout, the answer is the end. -/
theorem of_forall (hi : i ≤ eff) (h : ∀ j, i ≤ j → j < eff → p j) : FirstFailure p i eff eff :=
  ⟨hi, le_rfl, h, fun hlt => absurd hlt (lt_irrefl eff)⟩

/-- Indices at which `p` holds may be skipped. -/
theorem of_skip (hik : i ≤ k) (hp : ∀ j, i ≤ j → j < k → p j) (h : FirstFailure p k eff r) :
    FirstFailure p i eff r where
  start_le := hik.trans h.start_le
  le_end := h.le_end
  before j hij hjr := (Nat.lt_or_ge j k).elim (hp j hij) fun hkj => h.before j hkj hjr
  fails := h.fails

end FirstFailure

/-! ### The answer of `FIRSTDIV` (42_comparator.md rule R120) -/

theorem width_cases_of_validAB {s : State} (h : validAB s) : s.w = 1 ∨ s.w = 2 ∨ s.w = 4 ∨ s.w = 8 := by
  obtain ⟨⟨hs, hc, -⟩, -⟩ := h
  exact width_cases_of_inv hs hc

theorem exec_firstdiv_eq_ok {s : State} {f e r : Nat} (h : validAB s)
    (hr : firstDiv s.w s.cmd.a s.cmd.b f e = some r) : exec (.firstdiv f e) s = ok s (.index r) := by
  obtain ⟨⟨-, hc, ha⟩, hb⟩ := h
  refine (onValid_onOperand_none hc ((checkBytes_eq_none_iff_typed ..).2 ha)).trans ?_
  rw [(checkBytes_eq_none_iff_typed ..).2 hb, onOperand_none, hr]
  rfl

/-- With `from` at or beyond the effective end the scan has length 0. -/
theorem firstDiv_of_effEnd_le {w f e : Nat} {a b : ByteString} (hne : f ≠ e) (hf : effEnd w a b e ≤ f) :
    firstDiv w a b f e = some (effEnd w a b e) := by
  rw [firstDiv, if_neg hne, Nat.sub_eq_zero_of_le hf, scanWords]

theorem effEnd_le_left (w : Nat) (a b : ByteString) (e : Nat) : effEnd w a b e ≤ totalWords w a :=
  (Nat.min_le_right ..).trans (Nat.min_le_left ..)

theorem effEnd_le_right (w : Nat) (a b : ByteString) (e : Nat) : effEnd w a b e ≤ totalWords w b :=
  (Nat.min_le_right ..).trans (Nat.min_le_right ..)

theorem firstDiv_firstFailure {w f e : Nat} {a b : ByteString} (hw : w = 1 ∨ w = 2 ∨ w = 4 ∨ w = 8) (hne : f ≠ e)
    (hf : f ≤ effEnd w a b e) :
    ∃ r, firstDiv w a b f e = some r ∧
      FirstFailure (fun j => wordOf w a j = wordOf w b j) f (effEnd w a b e) r := by
  obtain ⟨r, hr, hle, hend, hbefore, hfails⟩ := scanWords_spec (effEnd w a b e - f) f hw (by omega)
    (effEnd_le_left w a b e) (effEnd_le_right w a b e)
  exact ⟨r, by rw [firstDiv, if_neg hne, hr], hle, hend, hbefore, hfails⟩

/-- Below both totals the word function and the spec's words agree alike. -/
theorem wordOf_eq_iff_agreeAt {s : State} {i : Nat} (hw : s.w = 1 ∨ s.w = 2 ∨ s.w = 4 ∨ s.w = 8)
    (hi : i < minTotal s) : wordOf s.w s.cmd.a i = wordOf s.w s.cmd.b i ↔ agreeAt s i := by
  rw [wordOf_of_lt hw (hi.trans_le (Nat.min_le_left ..)), wordOf_of_lt hw (hi.trans_le (Nat.min_le_right ..)),
    Option.some_inj]
  rfl

/-- Settles O40: the test `from = end` comes first. -/
theorem firstdivDegenerateRange : Obligations.FirstdivDegenerateRange :=
  fun _ _ h => exec_firstdiv_eq_ok h (if_pos rfl)

section
variable {s : State} {f e r : Nat}

theorem exec_firstdiv_of_beyond (h : validAB s) (hne : f ≠ e) (hf : min e (minTotal s) ≤ f) :
    exec (.firstdiv f e) s = ok s (.index (min e (minTotal s))) :=
  exec_firstdiv_eq_ok h (firstDiv_of_effEnd_le hne hf)

/-- Up to the effective end the answer is the first index below it at which the words differ, else the effective end. -/
theorem exec_firstdiv_firstFailure (h : validAB s) (hne : f ≠ e) (hf : f ≤ min e (minTotal s)) :
    ∃ r, exec (.firstdiv f e) s = ok s (.index r) ∧ FirstFailure (agreeAt s) f (min e (minTotal s)) r := by
  have hw := width_cases_of_validAB h
  obtain ⟨r, hr, hfirst⟩ := firstDiv_firstFailure hw hne hf
  exact ⟨r, exec_firstdiv_eq_ok h hr,
    hfirst.congr fun j hj => wordOf_eq_iff_agreeAt hw (hj.trans_le (Nat.min_le_right ..))⟩

theorem exec_firstdiv_of_firstFailure (h : validAB s) (hne : f ≠ e)
    (hr : FirstFailure (agreeAt s) f (min e (minTotal s)) r) : exec (.firstdiv f e) s = ok s (.index r) := by
  obtain ⟨r', hexec, hr'⟩ := exec_firstdiv_firstFailure h hne (hr.start_le.trans hr.le_end)
  rw [hexec, hr'.unique hr]

end

/-- Settles O38: the three cases of `from` against `end` and the effective end. -/
theorem firstdivAnswersTheScan : Obligations.FirstdivAnswersTheScan := by
  intro s f e h
  by_cases hfe : f = e
  · exact ⟨e, hfe ▸ firstdivDegenerateRange s f h, fun _ => rfl, fun hne => absurd hfe hne,
      fun hne => absurd hfe hne⟩
  rcases Nat.lt_or_ge f (min e (minTotal s)) with hf | hf
  · obtain ⟨r, hexec, hr⟩ := exec_firstdiv_firstFailure h hfe hf.le
    exact ⟨r, hexec, fun heq => absurd heq hfe, fun _ hle => absurd hf hle.not_gt,
      fun _ _ => ⟨hr.start_le, hr.le_end, hr.before, hr.fails⟩⟩
  · exact ⟨_, exec_firstdiv_of_beyond h hfe hf, fun heq => absurd heq hfe, fun _ _ => rfl,
      fun _ hlt => absurd hlt hf.not_gt⟩

/-- Settles O39: in range the effective end is `end`, and the first failure is unique. -/
theorem firstdivInRangeIsTheSmallestDifference : Obligations.FirstdivInRangeIsTheSmallestDifference := by
  intro s f e h hfe he
  have heff : min e (minTotal s) = e := Nat.min_eq_left he
  refine ⟨fun r hfr hre hdiff hagree => ?_, fun hagree => ?_⟩
  · refine exec_firstdiv_of_firstFailure h (hfr.trans_lt hre).ne ?_
    rw [heff]
    exact ⟨hfr, hre.le, hagree, fun _ => hdiff⟩
  · rcases hfe.eq_or_lt with rfl | hlt
    · exact firstdivDegenerateRange s f h
    · refine exec_firstdiv_of_firstFailure h hlt.ne ?_
      rw [heff]
      exact .of_forall hfe hagree

/-! ### Negative host indices (42_comparator.md rules R124, R126) -/

/-- The pattern of a negative host index is in the upper half of the range, above both totals. -/
theorem minTotal_lt_of_hostIndex_neg {s : State} {n i : Nat} (h : validAB s) (h1 : 1 ≤ n)
    (hneg : hostIndex s.idxw (-(n : Int)) = some i) : 2 ^ (s.idxw - 1) ≤ i ∧ minTotal s < i := by
  obtain ⟨⟨hs, -, ha⟩, -⟩ := h
  obtain ⟨hidxw, -⟩ := s.inv_iff.1 hs
  have hupper := two_pow_le_of_hostIndex_neg hidxw h1 hneg
  have htotal : totalWords s.w s.cmd.a < 2 ^ (s.idxw - 1) := totalWords_lt_of_typed hidxw ha
  exact ⟨hupper, (Nat.min_le_left ..).trans_lt (htotal.trans_le hupper)⟩

/-- Settles O41: each clause puts `from` at or beyond the effective end. -/
theorem firstdivFromBeyondTheEnd : Obligations.FirstdivFromBeyondTheEnd := by
  refine ⟨fun s f e h => exec_firstdiv_of_beyond h, fun s f e h hf hlt => ?_, fun s f e h hlt => ?_,
    fun s n f e h h1 hneg hne => ?_⟩
  · have heff : min e (minTotal s) = minTotal s := Nat.min_eq_right (hf.trans hlt.le)
    have hexec := exec_firstdiv_of_beyond h hlt.ne (heff.trans_le hf)
    rwa [heff] at hexec
  · exact exec_firstdiv_of_beyond h hlt.ne' ((Nat.min_le_left ..).trans hlt.le)
  · obtain ⟨-, hf⟩ := minTotal_lt_of_hostIndex_neg h h1 hneg
    exact exec_firstdiv_of_beyond h hne ((Nat.min_le_right ..).trans hf.le)

/-- Any `end` at or above the lesser total behaves as that total. -/
theorem exec_firstdiv_clamped {s : State} {f e : Nat} (h : validAB s) (hne : f ≠ e) (he : minTotal s ≤ e) :
    exec (.firstdiv f e) s = exec (.firstdiv f (minTotal s)) s := by
  have heff : min e (minTotal s) = minTotal s := Nat.min_eq_right he
  have hself : min (minTotal s) (minTotal s) = minTotal s := Nat.min_self _
  rcases Nat.lt_or_ge f (minTotal s) with hf | hf
  · obtain ⟨r, hexec, hr⟩ := exec_firstdiv_firstFailure h hf.ne (hf.le.trans hself.ge)
    rw [hself, ← heff] at hr
    rw [hexec, exec_firstdiv_of_firstFailure h hne hr]
  · rw [exec_firstdiv_of_beyond h hne (heff.trans_le hf), heff]
    rcases hf.eq_or_lt with rfl | hlt
    · exact (firstdivDegenerateRange s _ h).symm
    · rw [exec_firstdiv_of_beyond h hlt.ne' (hself.trans_le hf), hself]

/-- Settles O42: the pattern is above both totals, so it is clamped; equal operands have no difference below 6. -/
theorem negativeEndIsClampedToTheData : Obligations.NegativeEndIsClampedToTheData := by
  refine ⟨fun s n f e h h1 hneg hne => ?_, fun s e h hwidth ha hb hneg => ?_⟩
  · obtain ⟨hupper, hlt⟩ := minTotal_lt_of_hostIndex_neg h h1 hneg
    exact ⟨hupper, hlt, exec_firstdiv_clamped h hne hlt.le⟩
  · have htotal : minTotal s = 6 := by rw [minTotal, hwidth, ha, hb]; rfl
    have hagree (i : Nat) : agreeAt s i := by rw [agreeAt, ha, hb]
    obtain ⟨-, hlt⟩ := minTotal_lt_of_hostIndex_neg h le_rfl hneg
    obtain ⟨-, hnone⟩ := firstdivInRangeIsTheSmallestDifference s 0 6 h (by decide) htotal.ge
    rw [exec_firstdiv_clamped h (by omega) hlt.le, htotal]
    exact hnone fun i _ _ => hagree i

/-! ### What always holds of the result (42_comparator.md rules R129, R130) -/

/-- Settles O43: the three cases of the scan, each with its bound. -/
theorem firstdivResultAlways : Obligations.FirstdivResultAlways := by
  intro s f e h
  obtain ⟨r, hexec, hself, hbeyond, hscan⟩ := firstdivAnswersTheScan s f e h
  refine ⟨r, hexec, ?_⟩
  have heffe : min e (minTotal s) ≤ e := Nat.min_le_left ..
  have hefft : min e (minTotal s) ≤ minTotal s := Nat.min_le_right ..
  by_cases hfe : f = e
  · have hr := hself hfe
    exact ⟨fun i hfi hir => by omega, .inr (.inl ⟨hfe, hr⟩), hr.le, .inl hfe⟩
  rcases Nat.lt_or_ge f (min e (minTotal s)) with hf | hf
  · obtain ⟨hfr, hrend, hagree, hdiff⟩ := hscan hfe hf
    refine ⟨fun i hfi hir => ⟨by omega, hagree i hfi hir⟩, ?_, hrend.trans heffe, .inr (hrend.trans hefft)⟩
    rcases hrend.lt_or_eq with hlt | heq
    · exact .inl ⟨hfr, hlt, heffe, hdiff hlt⟩
    · exact .inr (.inr ⟨heq, heffe⟩)
  · have hr := hbeyond hfe hf
    exact ⟨fun i hfi hir => by omega, .inr (.inr ⟨hr, heffe⟩), hr.trans_le heffe, .inr (hr.trans_le hefft)⟩

/-- Settles O44: the result is below `from` only past the data, and no difference is shown only at the end of the data. -/
theorem firstdivMonotonicityAndItsDomain : Obligations.FirstdivMonotonicityAndItsDomain := by
  intro s f e h hle
  obtain ⟨r, hexec, hself, hbeyond, hscan⟩ := firstdivAnswersTheScan s f e h
  refine ⟨r, hexec, ?_⟩
  by_cases hfe : f = e
  · have hr := hself hfe
    exact ⟨fun i hfi hir => by omega, by omega, fun _ => ⟨by omega, hr.le, fun hlt => absurd hr hlt.ne⟩,
      fun hl => absurd hr hl.1.ne, fun hr => absurd hfe hr.1⟩
  rcases Nat.lt_or_ge f (min e (minTotal s)) with hf | hf
  · obtain ⟨hfr, hrend, hagree, hdiff⟩ := hscan hfe hf
    refine ⟨hagree, by omega, fun hin => ⟨hfr, by omega, fun hlt => hdiff (by omega)⟩, ?_, ?_⟩
    · rintro ⟨hre, hnot⟩
      have hrt : r = minTotal s := by
        by_contra hne
        exact hnot ⟨by omega, hdiff (by omega)⟩
      exact ⟨hfe, hrt ▸ hre, hrt ▸ hagree⟩
    · rintro ⟨-, hte, hall⟩
      exact ⟨by omega, fun ⟨hrt, hne⟩ => hne (hall r hfr hrt)⟩
  · have hr : r = minTotal s := by rw [hbeyond hfe hf]; omega
    exact ⟨fun i hfi hir => by omega, by omega, fun hin => by omega,
      fun hl => ⟨hfe, hr ▸ hl.1, fun i hfi hit => by omega⟩,
      fun _ => ⟨by omega, fun hl => absurd hr hl.1.ne⟩⟩

/-! ### The fast scan (42_comparator.md rule R127) -/

/-- The least differing group is the first failure of the agreement of groups. -/
theorem firstDiffGroup_firstFailure (w : Nat) (x y : Byte) :
    FirstFailure (fun k => groupOf w x k = groupOf w y k) 0 (wpb w) (firstDiffGroup w x y) := by
  have hfind : firstDiffGroup w x y = (List.range (wpb w)).findIdx fun k => !(groupOf w x k == groupOf w y k) := by
    rw [firstDiffGroup, List.takeWhile_eq_take_findIdx_not, List.length_take,
      Nat.min_eq_left List.findIdx_le_length]
  rw [hfind]
  refine ⟨Nat.zero_le _, List.findIdx_le_length.trans_eq List.length_range, fun j _ hj => ?_, fun hlt => ?_⟩
  · simpa using List.not_of_lt_findIdx hj
  · simpa using List.findIdx_getElem (w := hlt.trans_eq List.length_range.symm)

/-- The byte of an index below the total is in the operand. -/
theorem memRead_div_of_lt {w i : Nat} {x : ByteString} (hi : i < totalWords w x) :
    ∃ byte, memRead x (i / wpb w) = some byte :=
  ⟨_, memRead_of_lt (Nat.div_lt_of_lt_mul ((Nat.mul_comm ..).subst hi))⟩

section
variable {w : Nat} (hw : w = 1 ∨ w = 2 ∨ w = 4 ∨ w = 8)
include hw

/-- The words from a byte-aligned index on are the groups of the byte there. -/
theorem wordOf_aligned_add {i k : Nat} {x : ByteString} {byte : Byte} (hi : i % wpb w = 0) (hk : k < wpb w)
    (h : memRead x (i / wpb w) = some byte) : wordOf w x (i + k) = some (groupOf w byte k) := by
  have hdvd := Nat.dvd_of_mod_eq_zero hi
  have hbyte : byteIndex w (i + k) = i / wpb w := by
    rw [byteIndex_eq_div hw, Nat.add_div_of_dvd_right hdvd, Nat.div_eq_of_lt hk, Nat.add_zero]
  have hgroup : (i + k) % wpb w = k := by rw [Nat.add_mod, hi, Nat.zero_add, Nat.mod_mod, Nat.mod_eq_of_lt hk]
  rw [wordOf_of_memRead hw (hbyte ▸ h), hgroup]

/-- Words differ in two bytes exactly where their groups do, so the first difference is in the first differing group. -/
theorem firstFailure_of_bytes_ne {a b : ByteString} {x y : Byte} {i eff : Nat} (hi : i % wpb w = 0)
    (heff : i + wpb w ≤ eff) (hx : memRead a (i / wpb w) = some x) (hy : memRead b (i / wpb w) = some y) (hxy : x ≠ y) :
    FirstFailure (fun j => wordOf w a j = wordOf w b j) i eff (i + firstDiffGroup w x y) := by
  obtain ⟨-, hle, hbefore, hfails⟩ := firstDiffGroup_firstFailure w x y
  have hagree {k : Nat} (hk : k < wpb w) :
      wordOf w a (i + k) = wordOf w b (i + k) ↔ groupOf w x k = groupOf w y k := by
    rw [wordOf_aligned_add hw hi hk hx, wordOf_aligned_add hw hi hk hy, Option.some_inj]
  have hlt : firstDiffGroup w x y < wpb w := by
    by_contra hge
    exact hxy (byte_ext_groups hw fun k hk => hbefore k k.zero_le (by omega))
  refine ⟨Nat.le_add_right .., by omega, fun j hij hj => ?_, fun _ => mt (hagree hlt).1 (hfails hlt)⟩
  obtain ⟨k, rfl⟩ := Nat.exists_eq_add_of_le hij
  have hk : k < firstDiffGroup w x y := Nat.lt_of_add_lt_add_left hj
  exact (hagree (hk.trans hlt)).2 (hbefore k k.zero_le hk)

theorem wordOf_eq_of_byte_eq {a b : ByteString} {x : Byte} {i : Nat} (hi : i % wpb w = 0)
    (hx : memRead a (i / wpb w) = some x) (hy : memRead b (i / wpb w) = some x) :
    ∀ j, i ≤ j → j < i + wpb w → wordOf w a j = wordOf w b j := by
  intro j hij hj
  obtain ⟨k, rfl⟩ := Nat.exists_eq_add_of_le hij
  have hk : k < wpb w := Nat.lt_of_add_lt_add_left hj
  rw [wordOf_aligned_add hw hi hk hx, wordOf_aligned_add hw hi hk hy]

/-- The fast scan inside both operands answers the first index at which the words differ, else the effective end. -/
theorem fastScan_firstFailure {a b : ByteString} {eff : Nat} (ha : eff ≤ totalWords w a) (hb : eff ≤ totalWords w b)
    (n i : Nat) (hi : i ≤ eff) (hn : eff ≤ i + n) :
    ∃ r, fastScan w a b eff n i = some r ∧ FirstFailure (fun j => wordOf w a j = wordOf w b j) i eff r := by
  induction n generalizing i with
  | zero => exact ⟨eff, rfl, .of_forall hi fun j hij hj => by omega⟩
  | succ n ih =>
    have hpos := wpb_pos hw
    rw [fastScan]
    by_cases hend : eff ≤ i
    · exact ⟨eff, if_pos hend, .of_forall hi fun j hij hj => by omega⟩
    rw [if_neg hend]
    by_cases hwhole : i % wpb w = 0 ∧ i + wpb w ≤ eff
    · rw [if_pos hwhole]
      obtain ⟨halign, hfit⟩ := hwhole
      obtain ⟨x, hx⟩ := memRead_div_of_lt (w := w) (x := a) (i := i) (by omega)
      obtain ⟨y, hy⟩ := memRead_div_of_lt (w := w) (x := b) (i := i) (by omega)
      simp only [hx, hy]
      by_cases hxy : x = y
      · subst hxy
        obtain ⟨r, hr, hfirst⟩ := ih (i + wpb w) hfit (by omega)
        exact ⟨r, by rw [if_pos rfl, hr],
          hfirst.of_skip (Nat.le_add_right ..) (wordOf_eq_of_byte_eq hw halign hx hy)⟩
      · exact ⟨_, if_neg hxy, firstFailure_of_bytes_ne hw halign hfit hx hy hxy⟩
    · have hx := wordOf_of_lt (i := i) (x := a) hw (by omega)
      have hy := wordOf_of_lt (i := i) (x := b) hw (by omega)
      rw [if_neg hwhole]
      by_cases hxy : wordOf w a i = wordOf w b i
      · obtain ⟨r, hr, hfirst⟩ := ih (i + 1) (by omega) (by omega)
        refine ⟨r, ?_, hfirst.of_skip (Nat.le_succ i) fun j hij hj => ?_⟩
        · simp only [← hxy, hx, if_true, hr]
        · obtain rfl : j = i := by omega
          exact hxy
      · refine ⟨i, ?_, le_rfl, hi, fun j hij hj => by omega, fun _ => hxy⟩
        rw [hx, hy, Option.some_inj] at hxy
        simp only [hx, hy, if_neg hxy]

theorem firstDivFast_eq_firstDiv (a b : ByteString) (f e : Nat) : firstDivFast w a b f e = firstDiv w a b f e := by
  by_cases hfe : f = e
  · rw [firstDivFast, firstDiv, if_pos hfe, if_pos hfe]
  rcases Nat.le_total f (effEnd w a b e) with hf | hf
  · obtain ⟨r, hr, hfirst⟩ := firstDiv_firstFailure hw hfe hf
    obtain ⟨r', hr', hfirst'⟩ := fastScan_firstFailure hw (effEnd_le_left w a b e) (effEnd_le_right w a b e)
      (effEnd w a b e - f) f hf (by omega)
    rw [firstDivFast, if_neg hfe, hr', hr, hfirst'.unique hfirst]
  · rw [firstDiv_of_effEnd_le hfe hf, firstDivFast, if_neg hfe, Nat.sub_eq_zero_of_le hf, fastScan]

end

/-- Settles O45: both scans answer the first difference, which is unique. -/
theorem fastPathIsInvisible : Obligations.FastPathIsInvisible := by
  intro s f e h
  have hw := width_cases_of_validAB h
  obtain ⟨r, hr, -⟩ := firstDiv_eq_some_le hw s.cmd.a s.cmd.b f e
  exact ⟨r, (firstDivFast_eq_firstDiv hw ..).trans hr, exec_firstdiv_eq_ok h hr⟩

end Sys2Proof.Machine

/-! PROOFS of the family 60_exceptions: which command can end in which status. -/

namespace Sys2Proof.Machine

open Sys2Proof.Spec

/-- One row of the status table on a valid instance: the completion of the command, read off its response
(60_exceptions.md rule R151). -/
theorem status_of_complete {i : Instr} {s : State} {r : Response} {e : Status} (hc : s.cfgOk = true)
    (hexec : exec i s = .next (s.complete r)) (he : r.status = e) :
    ∃ t r, exec i s = .next t ∧ t.response = some r ∧
      (s.cfgOk = false → r.status = .errConfig) ∧ (s.cfgOk = true → r.status = e) :=
  ⟨_, r, hexec, State.complete_response s r, fun hf => absurd hc (Bool.eq_false_iff.1 hf), fun _ => he⟩

/-- Settles O48: with `CFG_OK` 0 the validity test answers; with `CFG_OK` 1 the answer of each operation, and of each
side of the bounds test of `WORDAT`, has its status. -/
theorem statusOfEachCommand : Obligations.StatusOfEachCommand := by
  intro i s hs htyped
  rcases Bool.eq_false_or_eq_true s.cfgOk with hc | hc
  · have hops := htyped hc
    cases i with
    | encode f e => exact status_of_complete hc (exec_encode_eq_ok f e hc hops) rfl
    | decode f e => exact status_of_complete hc (exec_decode_eq_ok f e hc hops) rfl
    | encodeall f e => exact status_of_complete hc (exec_encodeall_eq_ok f e hc hops) rfl
    | decodeall f e => exact status_of_complete hc (exec_decodeall_eq_ok f e hc hops) rfl
    | wordat n e =>
      rcases Nat.lt_or_ge n (totalWords s.w s.cmd.a) with hn | hn
      · have hword := wordOf_of_lt (width_cases_of_inv hs hc) hn
        exact status_of_complete hc (exec_wordat_eq_ok e hc hops hn hword) (if_pos hn).symm
      · exact status_of_complete hc (exec_wordat_eq_err e hc hops hn) (if_neg hn.not_gt).symm
    | firstdiv f e =>
      obtain ⟨ha, hb⟩ := hops
      obtain ⟨r, hexec, -⟩ := firstdivAnswersTheScan s f e ⟨⟨hs, hc, ha⟩, hb⟩
      exact status_of_complete hc hexec rfl
    | reserved6 f e => exact status_of_complete hc (reservedCodesAnswerErrOp s f e hc).1 rfl
    | reserved7 f e => exact status_of_complete hc (reservedCodesAnswerErrOp s f e hc).2 rfl
  · exact ⟨_, _, exec_of_invalid hc, State.complete_response .., fun _ => rfl,
      fun ht => absurd ht (Bool.eq_false_iff.1 hc)⟩

end Sys2Proof.Machine

/-! PROOFS of the family 70_reset_and_hazards: what asserting reset, construction and a command under reset do. -/

namespace Sys2Proof.Machine

/-! ### The step that asserts or releases reset (70_reset_and_hazards.md rules R170, R172) -/

theorem blockTurn_of_inReset {s : State} (h : s.inReset = true) : s.blockTurn = false := by
  simp [State.blockTurn, h]

/-- Asserting reset is the host's turn, whatever is in flight. -/
theorem step_of_assertReset {s : State} {rest : List HostEvent} (h : s.host = .assertReset :: rest) :
    step s = .next (State.assertReset { s with host := rest }) := by
  rw [step_of_hostTurn (by simp [State.blockTurn, hostYields, h])]
  simp [State.hostMove, h]

/-- Releasing an asserted reset is construction. -/
theorem step_of_releaseReset {s : State} {rest : List HostEvent} (hreset : s.inReset = true)
    (h : s.host = .releaseReset :: rest) : step s = .next (State.construct { s with host := rest }) := by
  rw [step_of_hostTurn (blockTurn_of_inReset hreset)]
  simp [State.hostMove, State.releaseReset, h, hreset]

/-! ### Reset and construction (70_reset_and_hazards.md rules R170 to R172) -/

/-- The state after construction, its `CFG_OK` as the list of legal widths. -/
theorem construct_eq (s : State) : s.construct = { s with
    inReset := false, width := s.strap
    cfgOk := decide (s.strap.toNat ∈ [1, 2, 4, 8])
    busy := false, cmd := Command.empty, response := none } := by
  have hlegal : legalWidth s.strap = decide (s.strap.toNat ∈ [1, 2, 4, 8]) :=
    Bool.eq_iff_iff.2 ((legalWidth_iff s.strap).trans decide_eq_true_iff.symm)
  rw [State.construct, hlegal]

/-- Settles O3: the release under reset is construction, and `cfg_err` is the negation of its `CFG_OK`. -/
theorem constructionSamplesTheStrap : Obligations.ConstructionSamplesTheStrap := by
  intro s rest hreset h
  refine ⟨_, step_of_releaseReset hreset h, construct_eq _, ?_⟩
  rw [construct_eq]
  simp [State.cfgErr]

/-- Settles O6: the assertion discards the command and its response; the release that follows finds reset asserted. -/
theorem resetAbandonsTheCommand : Obligations.ResetAbandonsTheCommand := by
  refine ⟨fun s rest h => step_of_assertReset h, fun s rest h => ?_⟩
  have hrelease := step_of_releaseReset (s := State.assertReset { s with host := .releaseReset :: rest }) rfl rfl
  rw [run_succ_of_next 1 (step_of_assertReset h), run_succ_of_next 0 hrelease, construct_eq]
  rfl

/-- Settles O8: under reset the step is the host's, and the command it offers is not accepted. -/
theorem noCommandIsAcceptedUnderReset : Obligations.NoCommandIsAcceptedUnderReset := by
  intro s c rest hreset h
  rw [step_of_hostTurn (blockTurn_of_inReset hreset)]
  simp [State.hostMove, State.offer, h, hreset]

end Sys2Proof.Machine
